-- ==== Sys2Proof/Word.lean ====
section
/-! DEFINITION. The bit-vector types of the T02 raster engine: registers and command words are 32 bits
(10_state.md section 2), the dimension and header operands 16 bits (R9, R36, R37, R39, R40), samples and
stream bytes 8 bits (R82, R85), the selector field of a command word 2 bits (R110). -/
namespace Sys2Proof

/-- A host-visible register or command word. -/
abbrev Word := BitVec 32

/-- A u16 operand field. -/
abbrev Half := BitVec 16

/-- One sample, bitmap byte or stream byte. -/
abbrev Byte := BitVec 8

/-- The SEL field of a command word. -/
abbrev Sel := BitVec 2

end Sys2Proof
end

