-- ==== Sys2Proof/Syntax.lean ====
section
/-! DEFINITION. The host commands of the engine: one constructor per row of spec/opcode_table.json (R111). The only
operand a command word carries is SEL (R110, R112); every other operand comes from the snapshot (R116). -/
namespace Sys2Proof

inductive Instr where
  /-- OP 0x01 (R140) -/
  | init
  /-- OP 0x02, SEL = pos (R145) -/
  | justify (pos : Sel)
  /-- OP 0x03 (R152) -/
  | feed
  /-- OP 0x04, SEL = mode (R160) -/
  | rhdr (mode : Sel)
  /-- OP 0x05 (R180) -/
  | xform
  /-- OP 0x06 (R230) -/
  | gen
  /-- OP 0x07 (R275) -/
  | clear
deriving DecidableEq, Repr

end Sys2Proof
end

