-- ==== Sys2Proof/WellFormed.lean ====
section
/-! DEFINITION. Which terms of Instr some legal command word stands for: every term but JUSTIFY with SEL = 3
(R112, R117). -/
namespace Sys2Proof

/-- R112: SEL = 3 is no justification; every SEL is a raster mode; the other commands have no operand. -/
def Instr.WellFormed : Instr → Bool
  | .init => true
  | .justify pos => pos != 3#2
  | .feed => true
  | .rhdr _ => true
  | .xform => true
  | .gen => true
  | .clear => true

end Sys2Proof
end

