-- ==== Sys2Proof/Decode.lean ====
section
/-! DEFINITION. The command word (R110), its decoder in the order of R113, rejecting by name (R114, R115, R117), and
the encoder. A command is one 32-bit write to CMD; its bytes travel little-endian over the host bus (R87, R88). -/
namespace Sys2Proof

/-- R110: OP, bits [7:0]. -/
def opField (w : Word) : BitVec 8 := w.extractLsb' 0 8

/-- R110: SEL, bits [9:8]. -/
def selField (w : Word) : Sel := w.extractLsb' 8 2

/-- R110: RSV, bits [31:10]. -/
def rsvField (w : Word) : BitVec 22 := w.extractLsb' 10 22

/-- The three ways a command word fails Decode (R113). -/
inductive CommandError where
  /-- R114 -/
  | illegalOpcode
  /-- R115 -/
  | reservedBits
  /-- R117 -/
  | badJustify
deriving DecidableEq, Repr

/-- R111: the command of a legal opcode. -/
def commandOf (op : BitVec 8) (sel : Sel) : Instr :=
  if op = 0x01#8 then .init
  else if op = 0x02#8 then .justify sel
  else if op = 0x03#8 then .feed
  else if op = 0x04#8 then .rhdr sel
  else if op = 0x05#8 then .xform
  else if op = 0x06#8 then .gen
  else .clear

/-- R113, check by check, in its order. -/
def decodeWord (w : Word) : Except CommandError Instr :=
  if (opField w).toNat < 1 ∨ 7 < (opField w).toNat then .error .illegalOpcode
  else if rsvField w ≠ 0#22 then .error .reservedBits
  else if opField w ≠ 0x02#8 ∧ opField w ≠ 0x04#8 ∧ selField w ≠ 0#2 then .error .reservedBits
  else if opField w = 0x02#8 ∧ selField w = 3#2 then .error .badJustify
  else .ok (commandOf (opField w) (selField w))

/-- R87, R88: the word whose bytes, lowest address first, are `b0 b1 b2 b3`. DEDUCED, safe: assumption log 20. -/
def wordOfBytes (b0 b1 b2 b3 : Byte) : Word := b3 ++ b2 ++ b1 ++ b0

/-- R88: the bytes of a word, lowest address first. -/
def bytesOfWord (w : Word) : List Byte :=
  [w.extractLsb' 0 8, w.extractLsb' 8 8, w.extractLsb' 16 8, w.extractLsb' 24 8]

/-- Why a byte sequence is no command. -/
inductive DecodeError where
  /-- fewer than the four bytes of a command word (R110) -/
  | truncated
  /-- the word fails Decode -/
  | command (e : CommandError)
deriving DecidableEq, Repr

/-- The first command of a byte sequence, and the bytes after it. -/
def decode : List Byte → Except DecodeError (Instr × List Byte)
  | b0 :: b1 :: b2 :: b3 :: rest =>
    match decodeWord (wordOfBytes b0 b1 b2 b3) with
    | .ok i => .ok (i, rest)
    | .error e => .error (.command e)
  | _ => .error .truncated

/-- R111: the OP value of a command. -/
def Instr.op : Instr → BitVec 8
  | .init => 0x01#8
  | .justify _ => 0x02#8
  | .feed => 0x03#8
  | .rhdr _ => 0x04#8
  | .xform => 0x05#8
  | .gen => 0x06#8
  | .clear => 0x07#8

/-- R112: the SEL value of a command. -/
def Instr.sel : Instr → Sel
  | .init => 0#2
  | .justify pos => pos
  | .feed => 0#2
  | .rhdr mode => mode
  | .xform => 0#2
  | .gen => 0#2
  | .clear => 0#2

/-- R110: the command word, RSV = 0. -/
def encode (i : Instr) : Word := (0#22 ++ i.sel) ++ i.op

/-- The command word as bytes, lowest address first. -/
def encodeBytes (i : Instr) : List Byte := bytesOfWord (encode i)

/-- A row of spec/opcode_table.json: a word `w` is the row's when `w &&& mask = pattern`. -/
structure OpRow where
  mnemonic : String
  mask     : Word
  pattern  : Word
deriving DecidableEq, Repr

/-- spec/opcode_table.json, row by row. -/
def opcodeTable : List OpRow :=
  [ { mnemonic := "INIT",    mask := 0xFFFFFFFF#32, pattern := 0x00000001#32 },
    { mnemonic := "JUSTIFY", mask := 0xFFFFFCFF#32, pattern := 0x00000002#32 },
    { mnemonic := "FEED",    mask := 0xFFFFFFFF#32, pattern := 0x00000003#32 },
    { mnemonic := "RHDR",    mask := 0xFFFFFCFF#32, pattern := 0x00000004#32 },
    { mnemonic := "XFORM",   mask := 0xFFFFFFFF#32, pattern := 0x00000005#32 },
    { mnemonic := "GEN",     mask := 0xFFFFFFFF#32, pattern := 0x00000006#32 },
    { mnemonic := "CLEAR",   mask := 0xFFFFFFFF#32, pattern := 0x00000007#32 } ]

/-- The table's row of a command, by position. -/
def Instr.row : Instr → Nat
  | .init => 0
  | .justify _ => 1
  | .feed => 2
  | .rhdr _ => 3
  | .xform => 4
  | .gen => 5
  | .clear => 6

/-- The host's question: the instruction of the `nbits`-bit word `w`, its bytes laid out lowest address first (assumption
log 20). -/
def decodeTableWord (nbits w : Nat) : Option Instr :=
  if nbits ≤ 32 then
    match decode (bytesOfWord (BitVec.ofNat 32 (w % 2 ^ nbits))) with
    | .ok (i, _) => some i
    | .error _ => none
  else none

end Sys2Proof
end

