-- ==== Sys2Proof/Config.lean ====
section
/-! DEFINITION. What the hardware fixes once and for all (00_scope.md section 4.1), the type of a resampling
kernel (R10), the four address spaces (R80), and the FREE VALUES: constants without a body, so nothing can be
proved about them, which stand for what the spec calls "any value" (93_implementation_defined.md section 2). -/
namespace Sys2Proof

/-- R80: the four disjoint address spaces. -/
inductive Space where
  /-- the host-visible registers (R81) -/
  | reg
  /-- the source samples (R82) -/
  | src
  /-- the bitmap (R84) -/
  | bm
  /-- the print stream (R85) -/
  | out
deriving DecidableEq, Repr

/-- R10, R190: a resampling kernel with the tap set it declares. `value W H T S x y` is the gray value of target
pixel `(x, y)`; `S` gives the sample at a SRC index. -/
structure Kernel where
  taps  : (W H T x y : Nat) → List Nat
  value : (W H T : Nat) → (S : Nat → Byte) → (x y : Nat) → Byte

namespace Config

/-- R1. -/
def widthDots : Nat := 384

/-- R2. -/
def widthBytes : Nat := 48

/-- R3: informational; no rule reads it. -/
def dpi : Nat := 203

/-- R4. -/
def maxLinesPerBlock : Nat := 255

/-- R5. -/
def defaultFeedLines : Int := 4

/-- R12: bytes in a bitmap row of `w` dots. -/
def bytesPerRow (w : Nat) : Nat := (w + 7) / 8

/-- R31: the constant the ID register reads. -/
def idValue : Word := 0x54303207#32

/-- R340, R342, R198, R239: the unspecified value that address `a` of a space holds after the `epoch`-th event
that left the space unspecified. No body: any value. -/
opaque unspecByte : (sp : Space) → (epoch a : Nat) → Byte

/-- R97: the value that an engine read of a raced SRC byte answers; `draw` numbers the race. No body: any value. -/
opaque raceByte : (draw : Nat) → Byte

/-- R92: the value that a host read of a result register or result byte returns while BUSY = 1; `draw` numbers the
read. No body: any value. -/
opaque busyWord : (draw : Nat) → Word

end Config
end Sys2Proof
end

