-- ==== Sys2Proof/Machine/State.lean ====
section
/-! DEFINITION. The state of the T02 raster engine and of the host that drives it (R30), as plain data: the registers
of 10_state.md section 2, the hidden state of R54, the memory spaces of 20_memory.md, the source port (R11, R83), the
open parameters (R6 to R8, R86), the host's program (R126), and the model's own bookkeeping of free values and of the
order in which the agents move (R94, R301). -/
namespace Sys2Proof.Machine

/-! ### Errors (60_exceptions.md section 1) -/

/-- R291: the error kinds, codes 0 to 5. -/
inductive ErrKind where
  | none
  | parameter
  | conversion
  | input
  | command
  | capacity
deriving DecidableEq, Repr

/-- R292: the error details 1 to 9. -/
inductive ErrDetail where
  | feedRange
  | zeroDim
  | srcUnreadable
  | srcDecode
  | illegalOpcode
  | reservedBits
  | badJustify
  | bmCapacity
  | outCapacity
deriving DecidableEq, Repr

/-- R48: the fields of ERR_INFO; bits [31:24] are RES0. -/
structure ErrInfo where
  /-- bits [7:0] ERR_CODE -/
  code   : Byte
  /-- bits [15:8] ERR_DETAIL -/
  detail : Byte
  /-- bits [23:16] ERR_OP -/
  op     : Byte
deriving DecidableEq, Repr

/-! ### Registers (10_state.md section 2) -/

/-- The sixteen registers of the REG space (R81), by name. -/
inductive Reg where
  | id | ctrl | status | cmd | errInfo | srcW | srcH | feed | hdrWb | hdrLines | bmH | outLen | blocks
  | rsv34 | rsv38 | rsv3C
deriving DecidableEq, Repr

/-- The stored register state. ID is a constant (R31), STATUS.BUSY is the phase (R41, R54), CTRL bit 31 and every
RES0 bit hold nothing, and IRQ is computed (R55). -/
structure Regs where
  /-- CTRL bit 0 (R33) -/
  feedDefault : Bool
  /-- CTRL bit 1 (R34) -/
  irqEn       : Bool
  /-- STATUS bit 1 (R42) -/
  done        : Bool
  /-- STATUS bit 2 (R43) -/
  err         : Bool
  /-- STATUS bit 3 (R44) -/
  bmValid     : Bool
  /-- STATUS bit 4 (R45) -/
  reject      : Bool
  /-- CMD: the last accepted command word (R47) -/
  cmd         : Word
  /-- ERR_INFO (R48) -/
  errInfo     : ErrInfo
  /-- SRC_W[15:0] (R36) -/
  srcW        : Half
  /-- SRC_H[15:0] (R37) -/
  srcH        : Half
  /-- FEED, s32 (R38) -/
  feed        : Word
  /-- HDR_WB[15:0] (R39) -/
  hdrWb       : Half
  /-- HDR_LINES[15:0] (R40) -/
  hdrLines    : Half
  /-- BM_H, a count of rows (R51) -/
  bmH         : Nat
  /-- OUT_LEN, a count of bytes (R49) -/
  outLen      : Nat
  /-- BLOCKS, a count of raster blocks (R52) -/
  blocks      : Nat
deriving DecidableEq, Repr

/-- R340 and 10_state.md section 4. -/
def Regs.reset : Regs where
  feedDefault := true
  irqEn := false
  done := false
  err := false
  bmValid := false
  reject := false
  cmd := 0#32
  errInfo := { code := 0#8, detail := 0#8, op := 0#8 }
  srcW := 0#16
  srcH := 0#16
  feed := 4#32
  hdrWb := 0#16
  hdrLines := 0#16
  bmH := 0
  outLen := 0
  blocks := 0

/-! ### Hidden state (R54) -/

/-- R46: the operands captured at acceptance. -/
structure Snapshot where
  cmd         : Word
  feedDefault : Bool
  w           : Half
  h           : Half
  feed        : Word
  wb          : Half
  lines       : Half
deriving DecidableEq, Repr

/-- R54: the engine's phase; a snapshot is held while it is Busy, and only then (R340). -/
inductive Phase where
  | idle
  | busy (snap : Snapshot)
deriving DecidableEq, Repr

/-! ### Memory spaces (20_memory.md) -/

/-- The contents of SRC, BM or OUT: the bytes the run has specified, addresses strictly rising. An address that is not
listed holds an unspecified value (R340, R198, R239), which reads as a free value; `epoch` counts the events that left
the whole space unspecified. -/
structure Memory where
  epoch : Nat
  cells : List Host.Cell
deriving DecidableEq, Repr

/-- R83: the three answers of the source port. -/
inductive SrcAnswer where
  | ok (b : Byte)
  | unreadable
  | decode
deriving DecidableEq, Repr

/-! ### Open parameters (R6, R7, R8, R86) -/

/-- The named parameters the spec leaves OPEN. No step changes them. -/
structure Params where
  /-- SRC_CAP (R6) -/
  srcCap     : Nat
  /-- BM_MAX_LINES (R7) -/
  bmMaxLines : Nat
  /-- OUT_CAP (R8) -/
  outCap     : Nat
  /-- REG_BASE (R86) -/
  regBase    : Nat
  /-- SRC_BASE (R86) -/
  srcBase    : Nat
  /-- BM_BASE (R86) -/
  bmBase     : Nat
  /-- OUT_BASE (R86) -/
  outBase    : Nat
deriving DecidableEq, Repr

/-- The parameter values at reset: room for the largest source (65535 by 65535), the tallest bitmap (R9) and its
stream (R237), the windows side by side in the address map. DESIGN CHOICE, unsafe: assumption log 2. -/
def Params.large : Params where
  srcCap := 4294836225
  bmMaxLines := 25165440
  outCap := 1208730632
  regBase := 0
  srcBase := 4294967296
  bmBase := 8589934592
  outBase := 12884901888

/-! ### The host (R30, R126) -/

/-- A statement of a host program. Names and labels are numbers. The assembly forms of R126 and R127 expand to these
(Machine/HostAsm.lean). -/
inductive HostStmt where
  /-- R87: `name <- MemRead(sp, addr, n)` -/
  | read (sp : Space) (addr n name : Nat)
  /-- R87: `MemWrite(sp, addr, n, v)` -/
  | write (sp : Space) (addr n : Nat) (v : Word)
  /-- R86: the same read by its address in the host's map -/
  | busRead (addr n name : Nat)
  /-- R86: the same write by its address in the host's map -/
  | busWrite (addr n : Nat) (v : Word)
  /-- R126 WAIT: repeat `RD STATUS -> s` until bit 0 of `s` is 0 -/
  | wait
  /-- R95, R345: wait for the IRQ output -/
  | waitIrq
  /-- R126 `<label>:` -/
  | label (l : Nat)
  /-- R126 BIT -/
  | bit (name k l : Nat)
  /-- R126 HALT -/
  | halt
deriving DecidableEq, Repr

/-- The host: its program, the statement it is at, and the values of its names. -/
structure HostAgent where
  program : List HostStmt
  pc      : Nat
  names   : List (Nat × Word)
deriving DecidableEq, Repr

/-- Who moves next, or what reaches the machine from outside. -/
inductive Turn where
  /-- the host executes one statement -/
  | host
  /-- the engine takes its step: a whole command body when Busy (R54), nothing when Idle (R312) -/
  | engine
  /-- power is cycled (R340) -/
  | powerOn
  /-- the image source changes what it answers (R83) -/
  | source (port : List (Nat × SrcAnswer))
deriving DecidableEq, Repr

/-! ### The whole state -/

structure State where
  /-- the OPEN parameters -/
  params : Params
  /-- the host-visible registers -/
  regs   : Regs
  /-- engine phase and snapshot (R54) -/
  phase  : Phase
  /-- the SRC space (R82) -/
  src    : Memory
  /-- the BM space (R84) -/
  bm     : Memory
  /-- the OUT space (R85) -/
  out    : Memory
  /-- SrcPort (R11, R83): the indices the port answers itself; at every other index it answers as plain memory. DESIGN
  CHOICE, unsafe: assumption log 16 -/
  port   : List (Nat × SrcAnswer)
  /-- R97: the SRC indices the host has written since the running command was accepted, each with its free-value
  number, indices strictly rising. DEDUCED, unsafe: assumption log 6 -/
  raced  : List (Nat × Nat)
  /-- the host agent (R30) -/
  host   : HostAgent
  /-- the MODEL's own (R94, R301): the coming turns, first one first; when it is empty a Busy engine moves, else the host.
  DESIGN CHOICE, unsafe: assumption log 8 -/
  sched  : List Turn
  /-- the MODEL's own: the number of the next free value. DESIGN CHOICE, safe: assumption log 7 -/
  free   : Nat
deriving DecidableEq, Repr

/-- Why the machine stops with a fault. Both are malformed HOST programs; the engine never faults (R276, R290). -/
inductive Fault where
  /-- raised by a BIT statement of the host program on a name that no RD, OUTR, BMR or WAIT has bound; safe: R126 gives such
  a program no meaning (assumption log 9) -/
  | unboundName (name : Nat)
  /-- raised by a taken BIT whose label stands nowhere in the program; safe: R126 gives such a program no meaning
  (assumption log 9) -/
  | missingLabel (l : Nat)
deriving DecidableEq, Repr

/-- Why a step has no meaning. -/
inductive Refusal where
  /-- raised by an arm of exec whose instruction has no meaning yet; safe -/
  | notModelled (mnemonic : String)
  /-- raised by exec when no command has been accepted (the engine is Idle): step never asks for it; safe (assumption
  log 10) -/
  | noCommand
  /-- raised by a host REG access that is not 4 bytes wide, not 4-aligned, or at 0x40 or above; R90: "a model refuses it";
  safe -/
  | badRegAccess
  /-- raised by a host access to SRC, BM or OUT of a width other than 1, 2 or 4, which R87 does not define; safe -/
  | badWidth
  /-- raised by a host access to SRC, BM or OUT that passes the end of its space; R90: "is refused"; safe -/
  | pastEnd
  /-- raised by a host access at a map address outside the four windows (R86), where none of this hardware is; safe -/
  | unmapped
deriving DecidableEq, Repr

/-- R340, R341: the machine right after power-on, with no host program loaded. The spec gives every register's value; the
parameters (assumption log 2) and the fields that are the model's own (assumption log 19) have values the model names. -/
def State.reset : State where
  params := Params.large
  regs := Regs.reset
  phase := .idle
  src := { epoch := 0, cells := [] }
  bm := { epoch := 0, cells := [] }
  out := { epoch := 0, cells := [] }
  port := []
  raced := []
  host := { program := [], pc := 0, names := [] }
  sched := []
  free := 0

end Sys2Proof.Machine
end

