-- ==== Sys2Proof/Machine/Ops.lean ====
section
/-! DEFINITION. The named operations over memory and registers that every meaning is written in: byte memory (R87, R91),
the source port (R83), the stream append (R50), the acceptance of a command (R271), its completion without error (R273)
and with one (R274, R295: the machine's one way of taking an exception), the return from an error (R298), and the resets
(R340, R342). -/
namespace Sys2Proof.Machine

/-! ### Sparse tables: lists of keyed entries, keys strictly rising -/

/-- The keys rise strictly. -/
abbrev Rising {α : Type} (l : List (Nat × α)) : Prop := l.Pairwise fun a b => a.1 < b.1

/-- The entry of a key, if it is listed. -/
def lookup {α : Type} : List (Nat × α) → Nat → Option α
  | [], _ => none
  | (k, v) :: rest, a => if a = k then some v else lookup rest a

/-- Entries for `vs` at the consecutive keys from `base` on. -/
def numbered {α : Type} : (base : Nat) → (vs : List α) → List (Nat × α)
  | _, [] => []
  | base, v :: rest => (base, v) :: numbered (base + 1) rest

/-- The table after `vs` has been written at the consecutive keys from `base` on. -/
def putRun {α : Type} (l : List (Nat × α)) (base : Nat) (vs : List α) : List (Nat × α) :=
  l.filter (fun e => decide (e.1 < base)) ++ numbered base vs ++
    l.filter (fun e => decide (base + vs.length ≤ e.1))

/-! ### Byte memory -/

/-- The canonical form: addresses strictly rising. Every entry is a specified byte, and an unlisted address holds an
unspecified one, so no entry repeats what an unlisted address reads as. -/
abbrev Memory.wf (m : Memory) : Prop := Rising m.cells

/-- The byte at an address of a space. What an unlisted address reads as: the free value of the space's epoch there.
DESIGN CHOICE, unsafe: assumption log 4. -/
def Memory.read (sp : Space) (m : Memory) (a : Nat) : Byte :=
  (lookup m.cells a).getD (Config.unspecByte sp m.epoch a)

/-- The bytes at `base, base + 1, …`. -/
def Memory.readRun (sp : Space) (m : Memory) (base len : Nat) : List Byte :=
  (List.range len).map fun k => m.read sp (base + k)

/-- Writes a run of bytes, one byte at each address from `base` on (R91). -/
def Memory.writeRun (m : Memory) (base : Nat) (bs : List Byte) : Memory :=
  { m with cells := putRun m.cells base bs }

/-- Leaves every byte of the space unspecified (R198, R239, R340, R342). -/
def Memory.unspecified (m : Memory) : Memory := { epoch := m.epoch + 1, cells := [] }

/-- The capacity of a space in bytes (R6, R7, R8, R81). -/
def Params.size (p : Params) : Space → Nat
  | .reg => 64
  | .src => p.srcCap
  | .bm => Config.widthBytes * p.bmMaxLines
  | .out => p.outCap

/-- R86: the base address of a space in the host's map. -/
def Params.base (p : Params) : Space → Nat
  | .reg => p.regBase
  | .src => p.srcBase
  | .bm => p.bmBase
  | .out => p.outBase

/-- R86: the space and offset that a map address reaches. DESIGN CHOICE, safe: assumption log 14. -/
def Params.locate (p : Params) (addr : Nat) : Option (Space × Nat) :=
  [Space.reg, Space.src, Space.bm, Space.out].findSome? fun sp =>
    if p.base sp ≤ addr ∧ addr < p.base sp + p.size sp then some (sp, addr - p.base sp) else none

/-- What R6, R7, R8, R80 and R86 require of the open parameters: the sizes' lower bounds, a stream length that fits the
32-bit OUT_LEN register (assumption log 3), and windows that do not overlap. -/
abbrev Params.wf (p : Params) : Prop :=
  1 ≤ p.srcCap ∧ 1 ≤ p.bmMaxLines ∧ 8 ≤ p.outCap ∧ p.outCap < 2 ^ 32 ∧
    [Space.reg, Space.src, Space.bm, Space.out].Pairwise fun a b =>
      p.base a + p.size a ≤ p.base b ∨ p.base b + p.size b ≤ p.base a

/-! ### The source port -/

/-- R83, R97: the answer to an engine read of SRC index `i`. A raced index answers a free value whatever the port would
answer. DEDUCED, unsafe: assumption log 6. -/
def srcRead (s : State) (i : Nat) : SrcAnswer :=
  if s.params.srcCap ≤ i then .unreadable
  else match lookup s.raced i with
    | some draw => .ok (Config.raceByte draw)
    | none =>
      match lookup s.port i with
      | some a => a
      | none => .ok (s.src.read .src i)

/-- R194: the error a tap read raises, if any. -/
def srcReadError (s : State) (i : Nat) : Option ErrDetail :=
  match srcRead s i with
  | .ok _ => none
  | .unreadable => some .srcUnreadable
  | .decode => some .srcDecode

/-- The sample of a tap whose read answers `Ok`; a transform that uses it has read no failing tap. -/
def sample (s : State) (i : Nat) : Byte :=
  match srcRead s i with
  | .ok b => b
  | .unreadable => 0#8
  | .decode => 0#8

/-! ### Emit (R50) -/

/-- The stream buffer of a running command: the OUT bytes and the working `out_len`. -/
structure OutBuf where
  mem : Memory
  len : Nat
deriving DecidableEq, Repr

/-- R50: all of `bs` is appended, or nothing is and the append fails. -/
def emit (cap : Nat) (o : OutBuf) (bs : List Byte) : Except ErrDetail OutBuf :=
  if cap < o.len + bs.length then .error .outCapacity
  else .ok { mem := o.mem.writeRun o.len bs, len := o.len + bs.length }

/-! ### Error codes -/

/-- R291. -/
def ErrKind.code : ErrKind → Byte
  | .none => 0#8
  | .parameter => 1#8
  | .conversion => 2#8
  | .input => 3#8
  | .command => 4#8
  | .capacity => 5#8

/-- R292: the number of a detail. -/
def ErrDetail.code : ErrDetail → Byte
  | .feedRange => 1#8
  | .zeroDim => 2#8
  | .srcUnreadable => 3#8
  | .srcDecode => 4#8
  | .illegalOpcode => 5#8
  | .reservedBits => 6#8
  | .badJustify => 7#8
  | .bmCapacity => 8#8
  | .outCapacity => 9#8

/-- R292: the one kind a detail belongs to. -/
def ErrDetail.kind : ErrDetail → ErrKind
  | .feedRange => .parameter
  | .zeroDim => .conversion
  | .srcUnreadable => .conversion
  | .srcDecode => .input
  | .illegalOpcode => .command
  | .reservedBits => .command
  | .badJustify => .command
  | .bmCapacity => .capacity
  | .outCapacity => .capacity

/-- R113: the detail of a Decode failure. -/
def commandDetail : CommandError → ErrDetail
  | .illegalOpcode => .illegalOpcode
  | .reservedBits => .reservedBits
  | .badJustify => .badJustify

/-- R295: the ERR_INFO fields of an error `d` of the command word `w`. -/
def errorRecord (w : Word) (d : ErrDetail) : ErrInfo :=
  { code := d.kind.code, detail := d.code, op := opField w }

/-- R48: ERR_INFO while no error is recorded. -/
def ErrInfo.none : ErrInfo := { code := 0#8, detail := 0#8, op := 0#8 }

/-! ### Acceptance and completion (43_control.md) -/

/-- R41, R54: STATUS.BUSY. -/
def State.busy (s : State) : Bool :=
  match s.phase with
  | .idle => false
  | .busy _ => true

/-- R46: the operands at acceptance of the word `w`. -/
def takeSnapshot (r : Regs) (w : Word) : Snapshot :=
  { cmd := w, feedDefault := r.feedDefault, w := r.srcW, h := r.srcH, feed := r.feed, wb := r.hdrWb,
    lines := r.hdrLines }

/-- R271: the engine accepts the word `w`. -/
def accept (w : Word) (s : State) : State :=
  { s with
    regs := { s.regs with cmd := w, done := false }
    phase := .busy (takeSnapshot s.regs w)
    raced := [] }

/-- R273: completion without error. -/
def completeOk (s : State) : State :=
  { s with regs := { s.regs with done := true }, phase := .idle, raced := [] }

/-- R274, R295: completion with the error `d` of the command in `sn`. This is how the hardware takes an exception: it
saves the kind, the detail and the opcode, sets ERR, and transfers control nowhere (R290). DONE stays as acceptance left
it. DEDUCED, safe: assumption log 22. -/
def completeError (sn : Snapshot) (d : ErrDetail) (s : State) : State :=
  { s with regs := { s.regs with err := true, errInfo := errorRecord sn.cmd d }, phase := .idle, raced := [] }

/-- R298: the return from an error, the host's write of 1 to STATUS bit 2; ERR and ERR_INFO are cleared (R43, R48) and
nothing else is restored. -/
def returnFromError (r : Regs) : Regs := { r with err := false, errInfo := ErrInfo.none }

/-- Runs a command body on the snapshot of the accepted command (R46); without one there is no command to run. DESIGN
CHOICE, safe: assumption log 10. -/
def withSnapshot (s : State) (body : Snapshot → Host.Outcome State Fault Refusal) :
    Host.Outcome State Fault Refusal :=
  match s.phase with
  | .idle => .refused .noCommand
  | .busy sn => body sn

/-! ### Reset (70_reset_and_hazards.md) -/

/-- R342: the soft reset; SRC is not changed. -/
def softReset (s : State) : State :=
  { s with
    regs := Regs.reset
    phase := .idle
    bm := s.bm.unspecified
    out := s.out.unspecified
    raced := [] }

/-- R340: power-on; the SRC contents are unspecified too. The host and the model's own fields stay. DESIGN CHOICE, safe:
assumption log 19. -/
def powerOn (s : State) : State := { softReset s with src := s.src.unspecified }

end Sys2Proof.Machine
end

