-- ==== Sys2Proof/Machine/Operands.lean ====
section
/-! DEFINITION. Operand assembly (R116) and the output frames the operands fill (R118 to R121). -/
namespace Sys2Proof.Machine

/-- 00_scope.md section 5: `lo8(v) = v[7:0]`. -/
def lo8 (v : Half) : Byte := v.extractLsb' 0 8

/-- 00_scope.md section 5: `hi8(v) = v[15:8]`. -/
def hi8 (v : Half) : Byte := v.extractLsb' 8 8

/-- R112: a selector zero-extended into its frame byte. -/
def zext8 (v : Sel) : Byte := v.setWidth 8

/-- R116: `snap.W` as an integer. -/
def Snapshot.width (sn : Snapshot) : Nat := sn.w.toNat

/-- R116: `snap.H` as an integer. -/
def Snapshot.height (sn : Snapshot) : Nat := sn.h.toNat

/-- R38, R116: `snap.FEED` as a signed integer. -/
def Snapshot.feedLines (sn : Snapshot) : Int := sn.feed.toInt

/-- R231: the feed value of GEN. -/
def Snapshot.genFeed (sn : Snapshot) : Int :=
  if sn.feedDefault then Config.defaultFeedLines else sn.feedLines

/-- R152, R235: the feed values that a FEED frame can carry. -/
abbrev feedInRange (n : Int) : Prop := 0 ≤ n ∧ n ≤ 255

/-- R118: ESC '@'. -/
def initFrame : List Byte := [0x1B#8, 0x40#8]

/-- R119: ESC 'a' pos. -/
def justifyFrame (pos : Byte) : List Byte := [0x1B#8, 0x61#8, pos]

/-- R120: ESC 'd' n. -/
def feedFrame (n : Byte) : List Byte := [0x1B#8, 0x64#8, n]

/-- R121, R162: GS 'v' '0' m xL xH yL yH. -/
def rasterHeader (mode : Byte) (widthBytes lines : Half) : List Byte :=
  [0x1D#8, 0x76#8, 0x30#8, mode, lo8 widthBytes, hi8 widthBytes, lo8 lines, hi8 lines]

/-- `n[7:0]` of a feed value. -/
def feedByte (n : Int) : Byte := BitVec.ofInt 8 n

/-- R230: GEN's header of a block of `k` lines, `rasterHeader(48, k, normal)`. -/
def blockHeader (k : Nat) : List Byte :=
  rasterHeader (zext8 0#2) (BitVec.ofNat 16 Config.widthBytes) (BitVec.ofNat 16 k)

end Sys2Proof.Machine
end

