-- ==== Sys2Proof/Machine/Resample.lean ====
section
/-! DEFINITION. The resampling kernel (R10, R188 to R191): this hardware's bilinear kernel in the integer form of R189,
the properties P1 to P3 that every kernel must have, and the target height (R185). -/
namespace Sys2Proof.Machine

/-- R185: `T = (H * 384) div W`, exactly. -/
def targetHeight (W H : Nat) : Nat := H * Config.widthDots / W

/-- One axis of R189: a clamped position `c` on a grid of `unit` per source sample gives the two taps and the weight of
the second one. -/
structure Tap where
  lo     : Nat
  hi     : Nat
  weight : Nat
deriving DecidableEq, Repr

/-- R189 (integer form): the taps at position `pos` of an axis of `n` samples, `unit` steps a sample, clamped to the
last sample. Positions below 0 have been clamped to 0 already. -/
def axisTap (n unit pos : Nat) : Tap :=
  let c := min pos (unit * (n - 1))
  { lo := c / unit, hi := min (c / unit + 1) (n - 1), weight := c % unit }

/-- R189: column taps of target column `x`. `(2x+1)*W - 384` is natural-number subtraction, which is the clamp at 0. -/
def columnTap (W x : Nat) : Tap := axisTap W 768 ((2 * x + 1) * W - 384)

/-- R189: row taps of target row `y`. -/
def rowTap (H T y : Nat) : Tap := axisTap H (2 * T) ((2 * y + 1) * H - T)

/-- R190. -/
def bilinearTaps (W H T x y : Nat) : List Nat :=
  let cx := columnTap W x
  let cy := rowTap H T y
  [cy.lo * W + cx.lo, cy.lo * W + cx.hi, cy.hi * W + cx.lo, cy.hi * W + cx.hi]

/-- R189, the integer form: `(2N + D) div (2D)`. -/
def bilinearNat (W H T : Nat) (S : Nat → Byte) (x y : Nat) : Nat :=
  let cx := columnTap W x
  let cy := rowTap H T y
  let p := fun u v => (S (v * W + u)).toNat
  let N := (2 * T - cy.weight) * ((768 - cx.weight) * p cx.lo cy.lo + cx.weight * p cx.hi cy.lo) +
    cy.weight * ((768 - cx.weight) * p cx.lo cy.hi + cx.weight * p cx.hi cy.hi)
  let D := 1536 * T
  (2 * N + D) / (2 * D)

/-- R189, the form over the rationals, before the rounding `floor(… + 1/2)`: the weighted mean of the four taps. -/
def bilinearMean (W H T : Nat) (S : Nat → Byte) (x y : Nat) : ℚ :=
  let fx : ℚ := ((2 * x + 1) * W - 384) / 768
  let fy : ℚ := ((2 * y + 1) * H - T) / (2 * T)
  let cx : ℚ := min (max fx 0) (W - 1)
  let cy : ℚ := min (max fy 0) (H - 1)
  let x0 := ⌊cx⌋.toNat
  let x1 := min (x0 + 1) (W - 1)
  let ax := cx - x0
  let y0 := ⌊cy⌋.toNat
  let y1 := min (y0 + 1) (H - 1)
  let ay := cy - y0
  let p : Nat → Nat → ℚ := fun u v => ((S (v * W + u)).toNat : ℚ)
  let top := (1 - ax) * p x0 y0 + ax * p x1 y0
  let bot := (1 - ax) * p x0 y1 + ax * p x1 y1
  (1 - ay) * top + ay * bot

/-- R189: the hardware's kernel. -/
def bilinear : Kernel where
  taps := bilinearTaps
  value := fun W H T S x y => BitVec.ofNat 8 (bilinearNat W H T S x y)

/-- R10, R188: the value this hardware gives the configuration field `resample`. DEDUCED, safe: assumption log 17. -/
def resample : Kernel := bilinear

/-- R191: what a kernel may be assumed to satisfy, for a source of `W` by `H` samples and its target pixels. P1's range
0..255 is the type of `value`. -/
structure Kernel.Lawful (K : Kernel) : Prop where
  /-- P1: every tap is below `W*H` -/
  taps_lt : ∀ W H x y i : Nat, 0 < W → 0 < H → x < 384 → y < targetHeight W H →
    i ∈ K.taps W H (targetHeight W H) x y → i < W * H
  /-- P1: the value depends only on the samples at the taps -/
  depends : ∀ (W H x y : Nat) (S S' : Nat → Byte), 0 < W → 0 < H → x < 384 → y < targetHeight W H →
    (∀ i ∈ K.taps W H (targetHeight W H) x y, S i = S' i) →
    K.value W H (targetHeight W H) S x y = K.value W H (targetHeight W H) S' x y
  /-- P2: constant preservation -/
  constant : ∀ (W H x y : Nat) (S : Nat → Byte) (c : Byte), 0 < W → 0 < H → x < 384 → y < targetHeight W H →
    (∀ i ∈ K.taps W H (targetHeight W H) x y, S i = c) → K.value W H (targetHeight W H) S x y = c
  /-- P3: identity at unit scale -/
  identity : ∀ (H x y : Nat) (S : Nat → Byte), 0 < H → x < 384 → y < H →
    K.value 384 H H S x y = S (y * 384 + x)

end Sys2Proof.Machine
end

