-- ==== Sys2Proof/Machine/Transform.lean ====
section
/-! DEFINITION. What the transform step computes (41_image_transformer.md section 2). -/
namespace Sys2Proof.Machine

/-- R195: invert, then threshold; true is "print". -/
def printBit (g : Byte) : Bool := decide (128 ≤ 255 - g.toNat)

/-- R89, R196: eight pixels in a byte, the first one in bit 7. -/
def packByte (bits : Nat → Bool) : Byte :=
  BitVec.ofNat 8 ((List.range 8).map fun k => (bits k).toNat * 2 ^ (7 - k)).sum

/-- R196: the 48 bytes of a row of 384 pixels. -/
def packRow (bits : Nat → Bool) : List Byte :=
  (List.range Config.widthBytes).map fun j => packByte fun k => bits (8 * j + k)

/-- R188, R192, R195, R196: the `48*T` bytes of the bitmap of a source whose samples are `S`. -/
def bitmap (K : Kernel) (W H T : Nat) (S : Nat → Byte) : List Byte :=
  (List.range T).flatMap fun y => packRow fun x => printBit (K.value W H T S x y)

/-- R190: the taps of every target pixel. -/
def allTaps (K : Kernel) (W H T : Nat) : List Nat :=
  (List.range T).flatMap fun y => (List.range Config.widthDots).flatMap fun x => K.taps W H T x y

/-- R193: the failing tap with the lowest index, if a tap read fails. -/
def lowestFailingTap (K : Kernel) (s : State) (W H T : Nat) : Option Nat :=
  ((allTaps K W H T).filter fun i => (srcReadError s i).isSome).min?

/-- R193, R194: the error the source reads raise, if any. -/
def sourceError (K : Kernel) (s : State) (W H T : Nat) : Option ErrDetail :=
  match lowestFailingTap K s W H T with
  | none => none
  | some i => srcReadError s i

/-- 41_image_transformer.md section 2, `Transform(W, H)`: the target height and the bitmap bytes, or the first error in
the order of R300. -/
def transform (K : Kernel) (s : State) (W H : Nat) : Except ErrDetail (Nat × List Byte) :=
  if W = 0 ∨ H = 0 then .error .zeroDim
  else if s.params.bmMaxLines < targetHeight W H then .error .bmCapacity
  else match sourceError K s W H (targetHeight W H) with
    | some d => .error d
    | none => .ok (targetHeight W H, bitmap K W H (targetHeight W H) (sample s))

end Sys2Proof.Machine
end

