-- ==== Sys2Proof/Machine/Fast.lean ====
section
/-! DEFINITION. Fast evaluation, proved equal to the clear definitions: an index over a sparse table, and with it the source
port, the transform step and a run of memory reads. The theorems marked csimp let compiled code use the index; no meaning
is stated in terms of this file. -/
namespace Sys2Proof.Machine

/-- A binary index: a key is found by its bits, lowest first. -/
inductive Index (α : Type) where
  | leaf
  | node (v : Option α) (l r : Index α)

/-- The entry at a key. -/
def Index.get {α : Type} : Index α → Nat → Option α
  | .leaf, _ => none
  | .node v l r, a => if a = 0 then v else if a % 2 = 1 then l.get (a / 2) else r.get (a / 2 - 1)

/-- Sets the entry at a key; `fuel` above the key is enough. -/
def Index.set {α : Type} (v : α) : (fuel : Nat) → (a : Nat) → Index α → Index α
  | 0, _, t => t
  | fuel + 1, a, .leaf =>
    if a = 0 then .node (some v) .leaf .leaf
    else if a % 2 = 1 then .node none (Index.set v fuel (a / 2) .leaf) .leaf
    else .node none .leaf (Index.set v fuel (a / 2 - 1) .leaf)
  | fuel + 1, a, .node w l r =>
    if a = 0 then .node (some v) l r
    else if a % 2 = 1 then .node w (Index.set v fuel (a / 2) l) r
    else .node w l (Index.set v fuel (a / 2 - 1) r)

/-- The index of a table. -/
def Index.of {α : Type} : List (Nat × α) → Index α
  | [] => .leaf
  | (k, v) :: rest => Index.set v (k + 1) k (Index.of rest)

theorem Index.get_set {α : Type} (v : α) (fuel : Nat) :
    ∀ (a b : Nat) (t : Index α), a < fuel →
      (Index.set v fuel a t).get b = if b = a then some v else t.get b := by
  induction fuel with
  | zero => intro a b t h; omega
  | succ fuel ih =>
    intro a b t h
    have odd : ∀ s : Index α, a % 2 = 1 → (Index.set v fuel (a / 2) s).get (b / 2) =
        if b / 2 = a / 2 then some v else s.get (b / 2) := fun s _ => ih _ _ s (by omega)
    have even : ∀ s : Index α, a ≠ 0 → (Index.set v fuel (a / 2 - 1) s).get (b / 2 - 1) =
        if b / 2 - 1 = a / 2 - 1 then some v else s.get (b / 2 - 1) := fun s _ => ih _ _ s (by omega)
    cases t with
    | leaf =>
      by_cases ha : a = 0
      · subst ha; by_cases hb : b = 0 <;> simp [Index.set, Index.get, hb]
      · by_cases ho : a % 2 = 1
        · simp only [Index.set, ha, if_false, ho, if_true, Index.get]
          rw [odd .leaf ho]
          simp only [Index.get]
          split_ifs <;> first | rfl | omega
        · simp only [Index.set, ha, if_false, ho, Index.get]
          rw [even .leaf ha]
          simp only [Index.get]
          split_ifs <;> first | rfl | omega
    | node w l r =>
      by_cases ha : a = 0
      · subst ha; by_cases hb : b = 0 <;> simp [Index.set, Index.get, hb]
      · by_cases ho : a % 2 = 1
        · simp only [Index.set, ha, if_false, ho, if_true, Index.get]
          rw [odd l ho]
          split_ifs <;> first | rfl | omega
        · simp only [Index.set, ha, if_false, ho, Index.get]
          rw [even r ha]
          split_ifs <;> first | rfl | omega

theorem Index.get_of {α : Type} (l : List (Nat × α)) (a : Nat) : (Index.of l).get a = lookup l a := by
  induction l with
  | nil => rfl
  | cons e rest ih => simp [Index.of, lookup, Index.get_set, ih]

/-- The indexes of what an engine read looks at. -/
structure SrcIndex where
  raced : Index Nat
  port  : Index SrcAnswer
  src   : Index Byte

/-- The indexes of a state. -/
def SrcIndex.of (s : State) : SrcIndex :=
  { raced := Index.of s.raced, port := Index.of s.port, src := Index.of s.src.cells }

/-- `srcRead` by indexes. -/
def SrcIndex.read (x : SrcIndex) (s : State) (i : Nat) : SrcAnswer :=
  if s.params.srcCap ≤ i then .unreadable
  else match x.raced.get i with
    | some draw => .ok (Config.raceByte draw)
    | none =>
      match x.port.get i with
      | some a => a
      | none => .ok ((x.src.get i).getD (Config.unspecByte .src s.src.epoch i))

theorem SrcIndex.read_of (s : State) (i : Nat) : (SrcIndex.of s).read s i = srcRead s i := by
  simp only [SrcIndex.of, SrcIndex.read, Index.get_of]
  rfl

/-- `transform` with the source read through indexes. -/
def transformFast (K : Kernel) (s : State) (W H : Nat) : Except ErrDetail (Nat × List Byte) :=
  let x := SrcIndex.of s
  let fails : Nat → Option ErrDetail := fun i =>
    match x.read s i with
    | .ok _ => none
    | .unreadable => some .srcUnreadable
    | .decode => some .srcDecode
  let value : Nat → Byte := fun i =>
    match x.read s i with
    | .ok b => b
    | .unreadable => 0#8
    | .decode => 0#8
  if W = 0 ∨ H = 0 then .error .zeroDim
  else if s.params.bmMaxLines < targetHeight W H then .error .bmCapacity
  else
    let err : Option ErrDetail :=
      match ((allTaps K W H (targetHeight W H)).filter fun i => (fails i).isSome).min? with
      | none => none
      | some i => fails i
    match err with
    | some d => .error d
    | none => .ok (targetHeight W H, bitmap K W H (targetHeight W H) value)

@[csimp] theorem transform_eq_fast : @transform = @transformFast := by
  funext K s W H
  simp only [transform, transformFast, sourceError, lowestFailingTap, srcReadError, SrcIndex.read_of]
  rfl

/-- `Memory.readRun` through an index. -/
def Memory.readRunFast (sp : Space) (m : Memory) (base len : Nat) : List Byte :=
  let cells := Index.of m.cells
  (List.range len).map fun k => (cells.get (base + k)).getD (Config.unspecByte sp m.epoch (base + k))

@[csimp] theorem Memory.readRun_eq_fast : @Memory.readRun = @Memory.readRunFast := by
  funext sp m base len
  simp only [Memory.readRun, Memory.readRunFast, Memory.read, Index.get_of]

end Sys2Proof.Machine
end

