-- ==== Sys2Proof/Machine/Transformer.lean ====
section
/-! DEFINITION. What the transform step leaves, and the command XFORM (41_image_transformer.md). -/
namespace Sys2Proof.Machine

/-- R197: what a transform step that succeeds leaves. -/
def transformDone (T : Nat) (bytes : List Byte) (s : State) : State :=
  { s with bm := s.bm.writeRun 0 bytes, regs := { s.regs with bmH := T, bmValid := true } }

/-- R198: what a transform step that fails leaves, after ZERO_DIM too (R184). DEDUCED, safe: assumption log 5. -/
def transformFailed (s : State) : State :=
  { s with bm := s.bm.unspecified, regs := { s.regs with bmH := 0, bmValid := false } }

/-- R180. -/
def execXform (s : State) : Host.Outcome State Fault Refusal :=
  withSnapshot s fun sn =>
    match transform resample s sn.width sn.height with
    | .error d => .next (completeError sn d (transformFailed s))
    | .ok (T, bytes) => .next (completeOk (transformDone T bytes s))

end Sys2Proof.Machine
end

