-- ==== Sys2Proof/Machine/Assembler.lean ====
section
/-! DEFINITION. The stream assembler and GEN (42_stream_assembler.md). -/
namespace Sys2Proof.Machine

/-- R232, R233: the chunking loop, `fuel` iterations at most: the blocks of the lines from `cur` up to `T`, read from the
bitmap `bm`, and the count of blocks. -/
def emitBlocks (cap : Nat) (bm : Memory) (T : Nat) :
    (fuel cur blocks : Nat) → OutBuf → Except ErrDetail (OutBuf × Nat)
  | 0, _, blocks, o => .ok (o, blocks)
  | fuel + 1, cur, blocks, o =>
    if cur < T then
      let k := min (T - cur) Config.maxLinesPerBlock
      match emit cap o (blockHeader k) with
      | .error d => .error d
      | .ok o1 =>
        match emit cap o1 (bm.readRun .bm (Config.widthBytes * cur) (Config.widthBytes * k)) with
        | .error d => .error d
        | .ok o2 => emitBlocks cap bm T fuel (cur + k) (blocks + 1) o2
    else .ok (o, blocks)

/-- R230, steps 2 to 4: the whole stream from the start of the buffer `o`, with `T` bitmap rows and feed value `fv`. The
loop makes at most `T` iterations, since each one takes a line (R277). -/
def assemble (cap : Nat) (bm : Memory) (T : Nat) (fv : Int) (o : OutBuf) : Except ErrDetail (OutBuf × Nat) :=
  match emit cap o initFrame with
  | .error d => .error d
  | .ok o1 =>
    match emit cap o1 (justifyFrame 0x01#8) with
    | .error d => .error d
    | .ok o2 =>
      match emitBlocks cap bm T T 0 0 o2 with
      | .error d => .error d
      | .ok (o3, blocks) =>
        if feedInRange fv then
          match emit cap o3 (feedFrame (feedByte fv)) with
          | .error d => .error d
          | .ok o4 => .ok (o4, blocks)
        else .error .feedRange

/-- R239, R296: what a GEN that fails after Decode leaves in OUT and its registers. -/
def genFailed (s : State) : State :=
  { s with out := s.out.unspecified, regs := { s.regs with outLen := 0, blocks := 0 } }

/-- R236: what a GEN that succeeds leaves in OUT and its registers. -/
def genDone (o : OutBuf) (blocks : Nat) (s : State) : State :=
  { s with out := o.mem, regs := { s.regs with outLen := o.len, blocks := blocks } }

/-- R230. -/
def execGen (s : State) : Host.Outcome State Fault Refusal :=
  withSnapshot s fun sn =>
    match transform resample s sn.width sn.height with
    | .error d => .next (completeError sn d (genFailed (transformFailed s)))
    | .ok (T, bytes) =>
      let s1 := transformDone T bytes s
      match assemble s1.params.outCap s1.bm T sn.genFeed { mem := s1.out, len := 0 } with
      | .error d => .next (completeError sn d (genFailed s1))
      | .ok (o, blocks) => .next (completeOk (genDone o blocks s1))

end Sys2Proof.Machine
end

