-- ==== Sys2Proof/Machine/Control.lean ====
section
/-! DEFINITION. The command CLEAR (R275). -/
namespace Sys2Proof.Machine

/-- R275: the stream is emptied; no OUT byte changes. -/
def execClear (s : State) : Host.Outcome State Fault Refusal :=
  withSnapshot s fun _ => .next (completeOk { s with regs := { s.regs with outLen := 0 } })

end Sys2Proof.Machine
end

