-- ==== Sys2Proof/Machine/Encoder.lean ====
section
/-! DEFINITION. The frame encoder commands INIT, JUSTIFY, FEED and RHDR (40_frame_encoder.md). Each appends one frame at
OUT_LEN (R141); when it fails it changes no buffer (R142). -/
namespace Sys2Proof.Machine

/-- R141, R142, R273, R274: append `frame` and complete, or complete with OUT_CAPACITY and nothing appended. -/
def appendFrame (frame : List Byte) (sn : Snapshot) (s : State) : State :=
  match emit s.params.outCap { mem := s.out, len := s.regs.outLen } frame with
  | .error d => completeError sn d s
  | .ok o => completeOk { s with out := o.mem, regs := { s.regs with outLen := o.len } }

/-- R140. -/
def execInit (s : State) : Host.Outcome State Fault Refusal :=
  withSnapshot s fun sn => .next (appendFrame initFrame sn s)

/-- R145; SEL = 3, which Decode rejects, raises BAD_JUSTIFY here too (R117). DEDUCED, safe: assumption log 18. -/
def execJustify (pos : Sel) (s : State) : Host.Outcome State Fault Refusal :=
  withSnapshot s fun sn =>
    if pos = 3#2 then .next (completeError sn .badJustify s)
    else .next (appendFrame (justifyFrame (zext8 pos)) sn s)

/-- R152, R153: the range check comes before the capacity check. -/
def execFeed (s : State) : Host.Outcome State Fault Refusal :=
  withSnapshot s fun sn =>
    if feedInRange sn.feedLines then .next (appendFrame (feedFrame (feedByte sn.feedLines)) sn s)
    else .next (completeError sn .feedRange s)

/-- R160, R161: `lines` and `widthBytes` are encoded as written. -/
def execRhdr (mode : Sel) (s : State) : Host.Outcome State Fault Refusal :=
  withSnapshot s fun sn => .next (appendFrame (rasterHeader (zext8 mode) sn.wb sn.lines) sn s)

end Sys2Proof.Machine
end

