-- ==== Sys2Proof/Machine/Dispatch.lean ====
section
/-! DEFINITION. Which meaning each command has. -/
namespace Sys2Proof.Machine

def exec (i : Instr) (s : State) : Host.Outcome State Fault Refusal :=
  match i with
  | .init => Sys2Proof.Machine.execInit s
  | .justify pos => Sys2Proof.Machine.execJustify pos s
  | .feed => Sys2Proof.Machine.execFeed s
  | .rhdr mode => Sys2Proof.Machine.execRhdr mode s
  | .xform => Sys2Proof.Machine.execXform s
  | .gen => Sys2Proof.Machine.execGen s
  | .clear => Sys2Proof.Machine.execClear s

end Sys2Proof.Machine
end

