-- ==== Sys2Proof/Machine/Flags.lean ====
section
/-! DEFINITION. The flags: the STATUS word and its write-1-to-clear rule (R41 to R45, R56), the CTRL word (R32, R35),
the ERR_INFO word (R48) and the interrupt output (R305). -/
namespace Sys2Proof.Machine

/-- The STATUS word of the five bits. -/
def statusBits (busy done err bmValid reject : Bool) : Word :=
  (BitVec.ofBool reject ++ BitVec.ofBool bmValid ++ BitVec.ofBool err ++ BitVec.ofBool done ++
    BitVec.ofBool busy).setWidth 32

/-- R41 to R45: what STATUS reads, but for the unspecified BM_VALID while Busy (R92). -/
def statusWord (s : State) : Word :=
  statusBits s.busy s.regs.done s.regs.err s.regs.bmValid s.regs.reject

/-- R56: a host write of `v` to STATUS; bit 2 is the return from an error (R298). -/
def writeStatus (v : Word) (r : Regs) : Regs :=
  let r1 : Regs := if v.getLsbD 2 then returnFromError r else r
  { r1 with done := r.done && !v.getLsbD 1, reject := r.reject && !v.getLsbD 4 }

/-- R32: what CTRL reads. -/
def ctrlWord (r : Regs) : Word := (BitVec.ofBool r.irqEn ++ BitVec.ofBool r.feedDefault).setWidth 32

/-- R35: the fields a CTRL write with bit 31 = 0 updates. -/
def writeCtrlFields (v : Word) (r : Regs) : Regs :=
  { r with feedDefault := v.getLsbD 0, irqEn := v.getLsbD 1 }

/-- R48: what ERR_INFO reads; bits [31:24] are 0. -/
def ErrInfo.word (e : ErrInfo) : Word := 0#8 ++ e.op ++ e.detail ++ e.code

/-- R305: the level of the IRQ output. -/
def irq (s : State) : Bool := s.regs.irqEn && (s.regs.done || s.regs.err)

end Sys2Proof.Machine
end

