-- ==== Sys2Proof/Machine/HostBus.lean ====
section
/-! DEFINITION. The host's accesses to the four spaces (R87, R90 to R93): the register map, what each register reads, what
each register write does, and the byte accesses to SRC, BM and OUT. -/
namespace Sys2Proof.Machine

/-- 10_state.md section 2: the offset of a register. -/
def Reg.offset : Reg → Nat
  | .id => 0x00
  | .ctrl => 0x04
  | .status => 0x08
  | .cmd => 0x0C
  | .errInfo => 0x10
  | .srcW => 0x14
  | .srcH => 0x18
  | .feed => 0x1C
  | .hdrWb => 0x20
  | .hdrLines => 0x24
  | .bmH => 0x28
  | .outLen => 0x2C
  | .blocks => 0x30
  | .rsv34 => 0x34
  | .rsv38 => 0x38
  | .rsv3C => 0x3C

/-- The registers in the order of their offsets. -/
def Reg.all : List Reg :=
  [.id, .ctrl, .status, .cmd, .errInfo, .srcW, .srcH, .feed, .hdrWb, .hdrLines, .bmH, .outLen, .blocks,
    .rsv34, .rsv38, .rsv3C]

/-- R81, R90: the register at an offset, if it is a multiple of 4 below 0x40. -/
def regAt (offset : Nat) : Option Reg := Reg.all.find? fun r => decide (r.offset = offset)

/-- What a register reads when the engine is Idle. -/
def regValue (s : State) : Reg → Word
  | .id => Config.idValue
  | .ctrl => ctrlWord s.regs
  | .status => statusWord s
  | .cmd => s.regs.cmd
  | .errInfo => s.regs.errInfo.word
  | .srcW => s.regs.srcW.setWidth 32
  | .srcH => s.regs.srcH.setWidth 32
  | .feed => s.regs.feed
  | .hdrWb => s.regs.hdrWb.setWidth 32
  | .hdrLines => s.regs.hdrLines.setWidth 32
  | .bmH => BitVec.ofNat 32 s.regs.bmH
  | .outLen => BitVec.ofNat 32 s.regs.outLen
  | .blocks => BitVec.ofNat 32 s.regs.blocks
  | .rsv34 => 0#32
  | .rsv38 => 0#32
  | .rsv3C => 0#32

/-- R92: what a register reads while BUSY = 1, with the free value `v`: BM_H, OUT_LEN, BLOCKS and STATUS.BM_VALID are any
value, everything else is exact. -/
def regValueBusy (s : State) (v : Word) : Reg → Word
  | .status => statusBits true s.regs.done s.regs.err (v.getLsbD 3) s.regs.reject
  | .bmH => v
  | .outLen => v
  | .blocks => v
  | r => regValue s r

/-- Takes the next free value number. -/
def State.drawn (s : State) (n : Nat) : State := { s with free := s.free + n }

/-- A host read of a register (R91: no side effect; the free value number is the model's own). DESIGN CHOICE, safe:
assumption log 7. -/
def regRead (s : State) (r : Reg) : Word × State :=
  if s.busy then (regValueBusy s (Config.busyWord s.free) r, s.drawn 1) else (regValue s r, s)

/-- R271, R272: a host write to CMD. -/
def writeCmd (w : Word) (s : State) : State :=
  if s.busy = true ∨ s.regs.err = true then { s with regs := { s.regs with reject := true } } else accept w s

/-- R35: a host write to CTRL. -/
def writeCtrl (v : Word) (s : State) : State :=
  if v.getLsbD 31 then softReset s else { s with regs := writeCtrlFields v s.regs }

/-- R31 to R53: what a host write of `v` to a register does. -/
def regWrite (v : Word) (s : State) : Reg → State
  | .id => s
  | .ctrl => writeCtrl v s
  | .status => { s with regs := writeStatus v s.regs }
  | .cmd => writeCmd v s
  | .errInfo => s
  | .srcW => { s with regs := { s.regs with srcW := v.setWidth 16 } }
  | .srcH => { s with regs := { s.regs with srcH := v.setWidth 16 } }
  | .feed => { s with regs := { s.regs with feed := v } }
  | .hdrWb => { s with regs := { s.regs with hdrWb := v.setWidth 16 } }
  | .hdrLines => { s with regs := { s.regs with hdrLines := v.setWidth 16 } }
  | .bmH => s
  | .outLen => s
  | .blocks => s
  | .rsv34 => s
  | .rsv38 => s
  | .rsv3C => s

/-- R87: the little-endian value of a run of bytes, zero-extended. -/
def leValue (bs : List Byte) : Word := BitVec.ofNat 32 (bs.foldr (fun b acc => b.toNat + 256 * acc) 0)

/-- R87: bytes 0 to n-1 of a written value. -/
def leBytes (v : Word) (n : Nat) : List Byte := (List.range n).map fun k => v.extractLsb' (8 * k) 8

/-- R87: the widths of a host access; any other is refused. DEDUCED, safe: assumption log 15. -/
abbrev accessWidth (n : Nat) : Prop := n = 1 ∨ n = 2 ∨ n = 4

/-- R87, R90: whether a byte access is inside the host contract. -/
def checkByteAccess (p : Params) (sp : Space) (addr n : Nat) : Except Refusal Unit :=
  if ¬ accessWidth n then .error .badWidth
  else if p.size sp < addr + n then .error .pastEnd
  else .ok ()

/-- R90: the register of a REG access inside the host contract. -/
def checkRegAccess (addr n : Nat) : Except Refusal Reg :=
  if n = 4 then
    match regAt addr with
    | some r => .ok r
    | none => .error .badRegAccess
  else .error .badRegAccess

/-- R92: a host read of the `n` bytes at `addr` of BM or OUT. -/
def resultRead (s : State) (sp : Space) (m : Memory) (addr n : Nat) : Word × State :=
  if s.busy then (leValue (leBytes (Config.busyWord s.free) n), s.drawn 1)
  else (leValue (m.readRun sp addr n), s)

/-- `MemRead(sp, addr, n)`. -/
def hostRead (s : State) (sp : Space) (addr n : Nat) : Except Refusal (Word × State) :=
  match sp with
  | .reg => (checkRegAccess addr n).map fun r => regRead s r
  | .src => (checkByteAccess s.params .src addr n).map fun _ => (leValue (s.src.readRun .src addr n), s)
  | .bm => (checkByteAccess s.params .bm addr n).map fun _ => resultRead s .bm s.bm addr n
  | .out => (checkByteAccess s.params .out addr n).map fun _ => resultRead s .out s.out addr n

/-- R82, R97: the host writes bytes of SRC, all of them in one step (DEDUCED, safe: assumption log 11). While the engine is
Busy every byte written races with it (DEDUCED, unsafe: assumption log 6). -/
def srcWrite (addr : Nat) (bs : List Byte) (s : State) : State :=
  let s1 : State := { s with src := s.src.writeRun addr bs }
  if s.busy then
    { s1 with
      raced := putRun s1.raced addr ((List.range bs.length).map fun k => s1.free + k)
      free := s1.free + bs.length }
  else s1

/-- `MemWrite(sp, addr, n, v)`; host writes to BM and OUT are ignored (R84, R85). -/
def hostWrite (s : State) (sp : Space) (addr n : Nat) (v : Word) : Except Refusal State :=
  match sp with
  | .reg => (checkRegAccess addr n).map fun r => regWrite v s r
  | .src => (checkByteAccess s.params .src addr n).map fun _ => srcWrite addr (leBytes v n) s
  | .bm => (checkByteAccess s.params .bm addr n).map fun _ => s
  | .out => (checkByteAccess s.params .out addr n).map fun _ => s

end Sys2Proof.Machine
end

