-- ==== Sys2Proof/Machine/HostProgram.lean ====
section
/-! DEFINITION. The host agent (R30): one statement of its program a turn (R126), in program order (R93). -/
namespace Sys2Proof.Machine

/-- The host goes on to its next statement. -/
def State.advance (s : State) : State := { s with host := { s.host with pc := s.host.pc + 1 } }

/-- `name <- v` -/
def State.bind (name : Nat) (v : Word) (s : State) : State :=
  { s with host := { s.host with names := putRun s.host.names name [v] } }

/-- The host goes to statement `k`. -/
def State.jump (k : Nat) (s : State) : State := { s with host := { s.host with pc := k } }

/-- R126: the statement a label names, by the label's own place in the program. The spec names labels before a statement
only. The model also lets a taken BIT go to a label after the last statement, where the program then ends, and takes the
first of two equal labels. DESIGN CHOICE, unsafe: assumption log 24. -/
def labelIndex (program : List HostStmt) (l : Nat) : Option Nat :=
  program.findIdx? fun st => decide (st = .label l)

/-- A read statement. -/
def hostReadStmt (sp : Space) (addr n name : Nat) (s : State) : Host.Outcome State Fault Refusal :=
  match hostRead s sp addr n with
  | .error r => .refused r
  | .ok (v, s') => .next (s'.bind name v).advance

/-- A write statement. -/
def hostWriteStmt (sp : Space) (addr n : Nat) (v : Word) (s : State) : Host.Outcome State Fault Refusal :=
  match hostWrite s sp addr n v with
  | .error r => .refused r
  | .ok s' => .next s'.advance

/-- R126: the name `s` that WAIT binds. Names are numbers, and this is its number. DESIGN CHOICE, safe: assumption
log 12. -/
def waitName : Nat := 0

/-- R126: WAIT does `RD STATUS -> s` once a turn, and goes on when bit 0 of the value read is 0. That bit is BUSY, exact
while a command runs (R41, R92; the lemma regRead_status_busy). DEDUCED, safe: assumption log 12. -/
def hostWait (s : State) : Host.Outcome State Fault Refusal :=
  let r := regRead s .status
  let t := r.2.bind waitName r.1
  if s.busy then .next t else .next t.advance

/-- R95: the host goes on when IRQ is asserted. DESIGN CHOICE, safe: assumption log 13. -/
def hostWaitIrq (s : State) : Host.Outcome State Fault Refusal :=
  if irq s then .next s.advance else .next s

/-- R126: BIT. DESIGN CHOICE, safe: assumption log 9. -/
def hostBit (name k l : Nat) (s : State) : Host.Outcome State Fault Refusal :=
  match lookup s.host.names name with
  | none => .fault (.unboundName name)
  | some v =>
    if v.getLsbD k then
      match labelIndex s.host.program l with
      | none => .fault (.missingLabel l)
      | some j => .next (s.jump j)
    else .next s.advance

/-- One statement of the host program. -/
def hostStmt (st : HostStmt) (s : State) : Host.Outcome State Fault Refusal :=
  match st with
  | .read sp addr n name => hostReadStmt sp addr n name s
  | .write sp addr n v => hostWriteStmt sp addr n v s
  | .busRead addr n name =>
    match s.params.locate addr with
    | none => .refused .unmapped
    | some (sp, off) => hostReadStmt sp off n name s
  | .busWrite addr n v =>
    match s.params.locate addr with
    | none => .refused .unmapped
    | some (sp, off) => hostWriteStmt sp off n v s
  | .wait => hostWait s
  | .waitIrq => hostWaitIrq s
  | .label _ => .next s.advance
  | .bit name k l => hostBit name k l s
  | .halt => .next (s.jump s.host.program.length)

/-- The host's turn; a program that has ended does nothing more (R126, R278). -/
def hostTurn (s : State) : Host.Outcome State Fault Refusal :=
  match s.host.program[s.host.pc]? with
  | none => .next s
  | some st => hostStmt st s

end Sys2Proof.Machine
end

