-- ==== Sys2Proof/Machine/Run.lean ====
section
/-! DEFINITION. The agents' turns (R30, R94): the engine runs the accepted command whole (R54), the host one statement,
and the outside world may cycle the power (R340) or change what the image source answers (R83). -/
namespace Sys2Proof.Machine

/-- R54, R113: the engine's step. A Busy engine decodes the accepted word and runs its command to completion; an Idle
engine does nothing (R312). -/
def engineTurn (s : State) : Host.Outcome State Fault Refusal :=
  match s.phase with
  | .idle => .next s
  | .busy sn =>
    match decodeWord sn.cmd with
    | .error e => .next (completeError sn (commandDetail e) s)
    | .ok i => exec i s

/-- R94, R301, R355: whose turn it is, and the state with that turn taken off the schedule. When the schedule is empty a
Busy engine moves, else the host. DESIGN CHOICE, unsafe: assumption log 8. -/
def nextTurn (s : State) : Turn × State :=
  match s.sched with
  | t :: rest => (t, { s with sched := rest })
  | [] => if s.busy then (.engine, s) else (.host, s)

/-- One turn. -/
def takeTurn (t : Turn) (s : State) : Host.Outcome State Fault Refusal :=
  match t with
  | .host => hostTurn s
  | .engine => engineTurn s
  | .powerOn => .next (powerOn s)
  | .source port => .next { s with port := port }

/-- The word the host offers, numbered as spec/opcode_table.json numbers it. -/
def tableWord (nbits w : Nat) : Word := BitVec.ofNat 32 (w % 2 ^ nbits)

/-- The engine has accepted `w`, and its turn is next. -/
def commandReady (w : Word) (s : State) : State := { accept w s with sched := .engine :: s.sched }

end Sys2Proof.Machine
end

