-- ==== Sys2Proof/Machine/Step.lean ====
section
/-! DEFINITION. One step of the machine: one turn of one agent. -/
namespace Sys2Proof.Machine

def step (s : State) : Host.Outcome State Fault Refusal := takeTurn (nextTurn s).1 (nextTurn s).2

/-- The engine fetches no instructions (R30): its next command is the word the CMD write was accepted with. So a word is
placed where step fetches by accepting it (R271), and giving the engine the next turn. DESIGN CHOICE, safe: assumption
log 1. -/
def State.withFetchWord (s : State) (nbits w : Nat) : State := commandReady (tableWord nbits w) s

end Sys2Proof.Machine
end

