-- ==== Sys2Proof/Machine/HostAsm.lean ====
section
/-! DEFINITION. The host assembly syntax (R126) and the command mnemonics and pseudo-instructions with their expansions
(R127). Names and labels are numbers, and the name `s` of WAIT is `waitName`. -/
namespace Sys2Proof.Machine

/-- R127: the positions of the mnemonic JUSTIFY. -/
inductive AsmPos where
  | left | center | right
deriving DecidableEq, Repr

/-- R127: the modes of the mnemonic RHDR. -/
inductive AsmMode where
  | normal | dw | dh | quad
deriving DecidableEq, Repr

/-- R126, R127: a line of host assembly. -/
inductive AsmStmt where
  | wr (r : Reg) (imm : Word)
  | rd (r : Reg) (name : Nat)
  | srcw (i : Nat) (b : Byte)
  | srcfill (i count : Nat) (b : Byte)
  | outr (a n name : Nat)
  | bmr (a n name : Nat)
  | wait
  | label (l : Nat)
  | bit (name k l : Nat)
  | halt
  | init
  | justify (pos : AsmPos)
  | feed
  | feedLines (n : Int)
  | rhdr (mode : AsmMode)
  | rhdrOf (wb lines : Word) (mode : AsmMode)
  | xform
  | xformOf (w h : Word)
  | gen
  | genOf (w h : Word)
  | genFeed (w h : Word) (n : Int)
  | clear
  | ack
  | srst
deriving DecidableEq, Repr

/-- `WR <REG>, <imm32>` -/
def asmWr (r : Reg) (imm : Word) : HostStmt := .write .reg r.offset 4 imm

/-- The CMD word of `JUSTIFY left / center / right`. -/
def AsmPos.word : AsmPos → Word
  | .left => 0x00000002#32
  | .center => 0x00000102#32
  | .right => 0x00000202#32

/-- The CMD word of `RHDR normal / dw / dh / quad`. -/
def AsmMode.word : AsmMode → Word
  | .normal => 0x00000004#32
  | .dw => 0x00000104#32
  | .dh => 0x00000204#32
  | .quad => 0x00000304#32

/-- R127: the s32 two's-complement word of a feed operand `#n`. An `n` outside the s32 range has no such word, and the spec
does not say what `FEED #n` or `GEN #w, #h, #n` then writes: the model takes `n` modulo 2^32. DESIGN CHOICE, unsafe:
assumption log 25. -/
def feedWord (n : Int) : Word := BitVec.ofInt 32 n

/-- R126, R127: the statements a line of assembly stands for. -/
def AsmStmt.expand : AsmStmt → List HostStmt
  | .wr r imm => [asmWr r imm]
  | .rd r name => [.read .reg r.offset 4 name]
  | .srcw i b => [.write .src i 1 (b.setWidth 32)]
  | .srcfill i count b => (List.range count).map fun k => .write .src (i + k) 1 (b.setWidth 32)
  | .outr a n name => [.read .out a n name]
  | .bmr a n name => [.read .bm a n name]
  | .wait => [.wait]
  | .label l => [.label l]
  | .bit name k l => [.bit name k l]
  | .halt => [.halt]
  | .init => [asmWr .cmd 0x00000001#32]
  | .justify pos => [asmWr .cmd pos.word]
  | .feed => [asmWr .cmd 0x00000003#32]
  | .feedLines n => [asmWr .feed (feedWord n), asmWr .cmd 0x00000003#32]
  | .rhdr mode => [asmWr .cmd mode.word]
  | .rhdrOf wb lines mode => [asmWr .hdrWb wb, asmWr .hdrLines lines, asmWr .cmd mode.word]
  | .xform => [asmWr .cmd 0x00000005#32]
  | .xformOf w h => [asmWr .srcW w, asmWr .srcH h, asmWr .cmd 0x00000005#32]
  | .gen => [asmWr .cmd 0x00000006#32]
  | .genOf w h => [asmWr .srcW w, asmWr .srcH h, asmWr .ctrl 0x00000001#32, asmWr .cmd 0x00000006#32]
  | .genFeed w h n =>
    [asmWr .srcW w, asmWr .srcH h, asmWr .feed (feedWord n), asmWr .ctrl 0x00000000#32,
      asmWr .cmd 0x00000006#32]
  | .clear => [asmWr .cmd 0x00000007#32]
  | .ack => [asmWr .status 0x00000016#32]
  | .srst => [asmWr .ctrl 0x80000000#32]

/-- The host program of an assembly text. -/
def assembleProgram (lines : List AsmStmt) : List HostStmt := lines.flatMap AsmStmt.expand

/-- The host loads a program and starts at its first statement. -/
def State.withProgram (s : State) (program : List HostStmt) : State :=
  { s with host := { program := program, pc := 0, names := [] } }

/-- R278: a run is over when the last statement has executed and the engine is Idle. -/
def State.runOver (s : State) : Bool := decide (s.host.program.length ≤ s.host.pc) && !s.busy

end Sys2Proof.Machine
end

