-- ==== Sys2Proof/Machine/Stream.lean ====
section
/-! DEFINITION. The reader of a print stream (R123) and the grammar of a GEN stream (R124): what the bytes that the engine
emits mean to whoever reads them. No meaning of a command uses this file. -/
namespace Sys2Proof.Machine

/-- R123: the parts of a stream. -/
inductive Segment where
  | init
  | justify (pos : Byte)
  | feed (n : Byte)
  | raster (mode : Byte) (widthBytes lines : Nat) (data : List Byte)
deriving DecidableEq, Repr

/-- A little-endian u16 field. -/
def le16 (lo hi : Byte) : Nat := lo.toNat + 256 * hi.toNat

/-- R123: the first part of a stream and the bytes after it, told from the leading bytes. -/
def readSegment : List Byte → Option (Segment × List Byte)
  | b0 :: b1 :: rest =>
    if b0 = 0x1B#8 ∧ b1 = 0x40#8 then some (.init, rest)
    else if b0 = 0x1B#8 ∧ b1 = 0x61#8 then
      match rest with
      | pos :: rest' => some (.justify pos, rest')
      | [] => none
    else if b0 = 0x1B#8 ∧ b1 = 0x64#8 then
      match rest with
      | n :: rest' => some (.feed n, rest')
      | [] => none
    else if b0 = 0x1D#8 ∧ b1 = 0x76#8 then
      match rest with
      | b2 :: mode :: b4 :: b5 :: b6 :: b7 :: rest' =>
        let len := le16 b4 b5 * le16 b6 b7
        if b2 = 0x30#8 ∧ len ≤ rest'.length then
          some (.raster mode (le16 b4 b5) (le16 b6 b7) (rest'.take len), rest'.drop len)
        else none
      | _ => none
    else none
  | _ => none

/-- R123: the parts of a whole stream, `fuel` of them at most; none where it is no sequence of frames. -/
def readStream : (fuel : Nat) → List Byte → Option (List Segment)
  | _, [] => some []
  | 0, _ :: _ => none
  | fuel + 1, bs =>
    match readSegment bs with
    | none => none
    | some (seg, rest) => (readStream fuel rest).map fun segs => seg :: segs

/-- R232, R233: the blocks of the bitmap rows from `cur` up to `T`, where `row r` is the bytes of row `r`. -/
def rasterSegments (row : Nat → List Byte) (T : Nat) : (fuel cur : Nat) → List Segment
  | 0, _ => []
  | fuel + 1, cur =>
    if cur < T then
      let k := min (T - cur) Config.maxLinesPerBlock
      .raster 0#8 Config.widthBytes k ((List.range k).flatMap fun j => row (cur + j)) ::
        rasterSegments row T fuel (cur + k)
    else []

/-- R124: the grammar of a GEN stream. -/
def genSegments (row : Nat → List Byte) (T : Nat) (n : Byte) : List Segment :=
  .init :: .justify 0x01#8 :: rasterSegments row T T 0 ++ [.feed n]

/-- The bytes of a part of a stream (R118 to R122). -/
def Segment.bytes : Segment → List Byte
  | .init => initFrame
  | .justify pos => justifyFrame pos
  | .feed n => feedFrame n
  | .raster mode wb lines data => rasterHeader mode (BitVec.ofNat 16 wb) (BitVec.ofNat 16 lines) ++ data

end Sys2Proof.Machine
end

