-- ==== Sys2Proof/Safety.lean ====
section
/-! DEFINITION. The terms in which claims speak: the invariant of the machine, the host contract, and the counts, frames
and error sets that the rules name. -/
namespace Sys2Proof.Machine

/-- The address holds a specified byte. -/
def Memory.listed (m : Memory) (a : Nat) : Bool := (lookup m.cells a).isSome

/-- R90: an access inside the host contract. -/
def accessLegal (p : Params) (sp : Space) (addr n : Nat) : Prop :=
  match sp with
  | .reg => n = 4 ∧ addr % 4 = 0 ∧ addr < 0x40
  | .src => (n = 1 ∨ n = 2 ∨ n = 4) ∧ addr + n ≤ p.srcCap
  | .bm => (n = 1 ∨ n = 2 ∨ n = 4) ∧ addr + n ≤ 48 * p.bmMaxLines
  | .out => (n = 1 ∨ n = 2 ∨ n = 4) ∧ addr + n ≤ p.outCap

/-- R237: `ceil(T / 255)`. -/
def blockCount (T : Nat) : Nat := (T + 254) / 255

/-- R237: `8 + 8B + 48T`. -/
def streamLength (T : Nat) : Nat := 8 + 8 * blockCount T + 48 * T

/-- R121: a raster part's mode, declared width in bytes, declared lines, and count of data bytes. -/
def Segment.shape : Segment → Option (Byte × Nat × Nat × Nat)
  | .init => none
  | .justify _ => none
  | .feed _ => none
  | .raster mode wb lines data => some (mode, wb, lines, data.length)

/-- R118 to R121, R140, R145, R152, R160: the frame an encoder command appends when it completes without error, byte by
byte; none for an operand it fails on and for the other commands. -/
def encoderFrame (sn : Snapshot) : Instr → Option (List Byte)
  | .init => some [0x1B#8, 0x40#8]
  | .justify pos => if pos = 3#2 then none else some [0x1B#8, 0x61#8, BitVec.ofNat 8 pos.toNat]
  | .feed =>
    if 0 ≤ sn.feed.toInt ∧ sn.feed.toInt ≤ 255 then some [0x1B#8, 0x64#8, BitVec.ofNat 8 sn.feed.toInt.toNat] else none
  | .rhdr mode =>
    some [0x1D#8, 0x76#8, 0x30#8, BitVec.ofNat 8 mode.toNat,
      BitVec.ofNat 8 (sn.wb.toNat % 256), BitVec.ofNat 8 (sn.wb.toNat / 256),
      BitVec.ofNat 8 (sn.lines.toNat % 256), BitVec.ofNat 8 (sn.lines.toNat / 256)]
  | .xform => none
  | .gen => none
  | .clear => none

/-- R293: the errors the command of a word can raise, by its OP. -/
def canRaise (w : Word) : List ErrDetail :=
  match (opField w).toNat with
  | 1 => [.reservedBits, .outCapacity]
  | 2 => [.reservedBits, .badJustify, .outCapacity]
  | 3 => [.reservedBits, .feedRange, .outCapacity]
  | 4 => [.reservedBits, .outCapacity]
  | 5 => [.reservedBits, .zeroDim, .bmCapacity, .srcUnreadable, .srcDecode]
  | 6 => [.reservedBits, .zeroDim, .bmCapacity, .srcUnreadable, .srcDecode, .outCapacity, .feedRange]
  | 7 => [.reservedBits]
  | _ => [.illegalOpcode]

/-- R126: `t` is `u` with `name` bound to `v` and the host at statement `k`; every other name is as in `u`. -/
def Binds (name : Nat) (v : Word) (k : Nat) (u t : State) : Prop :=
  t = { u with host := { program := u.host.program, pc := k, names := t.host.names } } ∧
    lookup t.host.names name = some v ∧ ∀ m, m ≠ name → lookup t.host.names m = lookup u.host.names m

/-- R184, R186, R193: what the transform step needs to succeed: positive dimensions, a bitmap that fits, and an answer `Ok`
for every tap. -/
structure SourceReady (s : State) (W H : Nat) : Prop where
  width_pos  : 0 < W
  height_pos : 0 < H
  fits       : targetHeight W H ≤ s.params.bmMaxLines
  readable   : ∀ x y i : Nat, x < 384 → y < targetHeight W H → i ∈ resample.taps W H (targetHeight W H) x y →
    ∃ b, srcRead s i = .ok b

/-- R230: what GEN needs to complete without error. -/
structure GenReady (s : State) (sn : Snapshot) : Prop where
  source   : SourceReady s sn.w.toNat sn.h.toNat
  feed     : 0 ≤ sn.genFeed ∧ sn.genFeed ≤ 255
  capacity : streamLength (targetHeight sn.w.toNat sn.h.toNat) ≤ s.params.outCap

/-- What holds of the machine at reset and after every step. -/
structure Inv (s : State) : Prop where
  /-- R6, R7, R8, R80 -/
  params_wf    : s.params.wf
  /-- the canonical form of the spaces and tables -/
  src_wf       : s.src.wf
  bm_wf        : s.bm.wf
  out_wf       : s.out.wf
  raced_rising : Rising s.raced
  names_rising : Rising s.host.names
  /-- no entry lies outside its space (R82, R84, R85) -/
  src_bound    : ∀ e ∈ s.src.cells, e.1 < s.params.srcCap
  bm_bound     : ∀ e ∈ s.bm.cells, e.1 < 48 * s.params.bmMaxLines
  out_bound    : ∀ e ∈ s.out.cells, e.1 < s.params.outCap
  raced_bound  : ∀ e ∈ s.raced, e.1 < s.params.srcCap
  /-- R44: the bitmap of BM_H rows is complete -/
  bm_complete  : ∀ a, a < 48 * s.regs.bmH → s.bm.listed a = true
  /-- R49: the stream of OUT_LEN bytes is complete -/
  out_complete : ∀ a, a < s.regs.outLen → s.out.listed a = true
  /-- R50 -/
  outLen_le    : s.regs.outLen ≤ s.params.outCap
  /-- R51, R186 -/
  bmH_le       : s.regs.bmH ≤ s.params.bmMaxLines
  bmH_max      : s.regs.bmH ≤ 25165440
  /-- R52 -/
  blocks_max   : s.regs.blocks ≤ 98688
  /-- R44, R51, R198 -/
  bmH_invalid  : s.regs.bmValid = false → s.regs.bmH = 0
  /-- R48 -/
  info_clear   : s.regs.err = false → s.regs.errInfo = ErrInfo.none
  /-- R291, R292, R295: only the listed codes, and the OP of the failing command, which is the last accepted one -/
  info_legal   : s.regs.err = true → ∃ d, s.regs.errInfo = errorRecord s.regs.cmd d
  /-- R273, R274 -/
  not_both     : ¬ (s.regs.done = true ∧ s.regs.err = true)
  /-- R271, R299: while Busy neither DONE nor ERR is set, and CMD is the running command -/
  busy_flags   : ∀ sn, s.phase = .busy sn → s.regs.done = false ∧ s.regs.err = false ∧ sn.cmd = s.regs.cmd
  /-- R97: races belong to a running command -/
  idle_raced   : s.phase = .idle → s.raced = []

end Sys2Proof.Machine
end

