-- ==== Sys2Proof/Certificates/Slice0/Obligations.lean ====
section
/-! DEFINITION. The statements about the T02 raster engine that the provers settle. Each is about every state that meets
its hypotheses; the docstring names the rule it formalises. -/

open Sys2Proof Sys2Proof.Machine

/-! ### Encoding -/

/-- R110 to R117: a word decodes to a command exactly when the command is well formed and is encoded by that word, so no
bit of a command word is dropped and no two words are one command. -/
def Obligations.DecodeIsTheInverseOfEncode : Prop :=
  ∀ (w : Word) (i : Instr), decodeWord w = .ok i ↔ (i.WellFormed = true ∧ encode i = w)

/-- The opcode table (R111): no word is in two rows; a word that decodes is in its command's row; and a word in a row decodes
to that row's command, but for JUSTIFY with SEL = 3, which is refused by name (R117). -/
def Obligations.DecoderAgreesWithTheOpcodeTable : Prop :=
  (∀ (j k : Nat) (r r' : OpRow) (w : Word), opcodeTable[j]? = some r → opcodeTable[k]? = some r' →
    w &&& r.mask = r.pattern → w &&& r'.mask = r'.pattern → j = k) ∧
  (∀ (w : Word) (i : Instr), decodeWord w = .ok i →
    ∃ r, opcodeTable[i.row]? = some r ∧ w &&& r.mask = r.pattern) ∧
  (∀ (k : Nat) (r : OpRow) (w : Word), opcodeTable[k]? = some r → w &&& r.mask = r.pattern →
    (k = 1 ∧ selField w = 3#2 ∧ decodeWord w = .error .badJustify) ∨ ∃ i, decodeWord w = .ok i ∧ i.row = k)

/-- A few of the words of R127 and of the vectors L2-D, read as the spec says. -/
def Obligations.SpecWordsDecodeAsTheSpecSays : Prop :=
  decodeWord 0x00000001#32 = .ok .init ∧
  decodeWord 0x00000102#32 = .ok (.justify 1#2) ∧
  decodeWord 0x00000003#32 = .ok .feed ∧
  decodeWord 0x00000304#32 = .ok (.rhdr 3#2) ∧
  decodeWord 0x00000005#32 = .ok .xform ∧
  decodeWord 0x00000006#32 = .ok .gen ∧
  decodeWord 0x00000007#32 = .ok .clear ∧
  decodeWord 0x00000702#32 = .error .reservedBits ∧
  decodeWord 0x00000302#32 = .error .badJustify ∧
  decodeWord 0x000000FF#32 = .error .illegalOpcode

/-- R114: a running command word whose OP is 0x00 or 0x08 to 0xFF completes with CommandError (4), detail ILLEGAL_OPCODE (5);
and no OP of 0x01 to 0x07 does, so those are all the legal ones. -/
def Obligations.IllegalOpcodesFailByName : Prop :=
  ∀ (s : State) (sn : Snapshot), s.phase = .busy sn →
    ((sn.cmd.toNat % 256 = 0 ∨ 8 ≤ sn.cmd.toNat % 256) →
      engineTurn s = .next { s with
        regs := { s.regs with err := true, errInfo := { code := 4#8, detail := 5#8, op := BitVec.ofNat 8 sn.cmd.toNat } }
        phase := .idle, raced := [] }) ∧
    (1 ≤ sn.cmd.toNat % 256 → sn.cmd.toNat % 256 ≤ 7 →
      decodeWord sn.cmd ≠ .error .illegalOpcode)

/-- R115: a legal OP with RSV not 0, or with SEL not 0 for an opcode other than JUSTIFY (2) and RHDR (4), completes with
CommandError (4), detail RESERVED_BITS (6). -/
def Obligations.ReservedBitsFailByName : Prop :=
  ∀ (s : State) (sn : Snapshot), s.phase = .busy sn →
    1 ≤ sn.cmd.toNat % 256 → sn.cmd.toNat % 256 ≤ 7 →
    (sn.cmd.toNat / 1024 ≠ 0 ∨
      (sn.cmd.toNat % 256 ≠ 2 ∧ sn.cmd.toNat % 256 ≠ 4 ∧ sn.cmd.toNat / 256 % 4 ≠ 0)) →
    engineTurn s = .next { s with
      regs := { s.regs with err := true, errInfo := { code := 4#8, detail := 6#8, op := BitVec.ofNat 8 sn.cmd.toNat } }
      phase := .idle, raced := [] }

/-- R117: JUSTIFY with SEL = 3 completes with CommandError (4), detail BAD_JUSTIFY (7), and emits nothing. That `exec` of the
command itself, given that selector, does the same is the model's choice (assumption log 18): a step never runs it. -/
def Obligations.JustifyWithSelectorThreeFails : Prop :=
  ∀ (s : State) (sn : Snapshot), s.phase = .busy sn → sn.cmd = 0x00000302#32 →
    engineTurn s = .next { s with
      regs := { s.regs with err := true, errInfo := { code := 4#8, detail := 7#8, op := 2#8 } }
      phase := .idle, raced := [] } ∧
    exec (.justify 3#2) s = engineTurn s

/-! ### The frame encoder commands -/

/-- R118, R140: INIT appends the two bytes 1B 40 and completes without error when they fit. -/
def Obligations.InitAppendsItsTwoBytes : Prop :=
  ∀ (s : State) (sn : Snapshot), s.phase = .busy sn → s.regs.outLen + 2 ≤ s.params.outCap →
    exec .init s = .next { s with
      out := s.out.writeRun s.regs.outLen [0x1B#8, 0x40#8]
      regs := { s.regs with outLen := s.regs.outLen + 2, done := true }
      phase := .idle, raced := [] }

/-- R119, R145: JUSTIFY with a legal selector appends 1B 61 pos. -/
def Obligations.JustifyAppendsItsPosition : Prop :=
  ∀ (s : State) (sn : Snapshot) (pos : Sel), s.phase = .busy sn → pos ≠ 3#2 →
    s.regs.outLen + 3 ≤ s.params.outCap →
    exec (.justify pos) s = .next { s with
      out := s.out.writeRun s.regs.outLen [0x1B#8, 0x61#8, BitVec.ofNat 8 pos.toNat]
      regs := { s.regs with outLen := s.regs.outLen + 3, done := true }
      phase := .idle, raced := [] }

/-- R120, R152, R153: FEED with `0 ≤ n ≤ 255` in the signed FEED operand appends 1B 64 n. -/
def Obligations.FeedAppendsItsCount : Prop :=
  ∀ (s : State) (sn : Snapshot) (n : Nat), s.phase = .busy sn → sn.feed.toInt = n → n ≤ 255 →
    s.regs.outLen + 3 ≤ s.params.outCap →
    exec .feed s = .next { s with
      out := s.out.writeRun s.regs.outLen [0x1B#8, 0x64#8, BitVec.ofNat 8 n]
      regs := { s.regs with outLen := s.regs.outLen + 3, done := true }
      phase := .idle, raced := [] }

/-- R121, R160, R161, R162: RHDR appends the eight header bytes, each u16 field low byte first, whatever the fields hold. -/
def Obligations.RhdrAppendsItsHeader : Prop :=
  ∀ (s : State) (sn : Snapshot) (mode : Sel), s.phase = .busy sn → s.regs.outLen + 8 ≤ s.params.outCap →
    exec (.rhdr mode) s = .next { s with
      out := s.out.writeRun s.regs.outLen
        [0x1D#8, 0x76#8, 0x30#8, BitVec.ofNat 8 mode.toNat,
          BitVec.ofNat 8 (sn.wb.toNat % 256), BitVec.ofNat 8 (sn.wb.toNat / 256),
          BitVec.ofNat 8 (sn.lines.toNat % 256), BitVec.ofNat 8 (sn.lines.toNat / 256)]
      regs := { s.regs with outLen := s.regs.outLen + 8, done := true }
      phase := .idle, raced := [] }

/-- R153, R300: a feed operand below 0 or above 255 always fails with ParameterError (1), FEED_RANGE (1), whether or not the
frame would have fitted, and nothing is emitted. -/
def Obligations.FeedOutOfRangeAlwaysFails : Prop :=
  ∀ (s : State) (sn : Snapshot), s.phase = .busy sn → (sn.feed.toInt < 0 ∨ 255 < sn.feed.toInt) →
    exec .feed s = .next { s with
      regs := { s.regs with err := true, errInfo := { code := 1#8, detail := 1#8, op := opField sn.cmd } }
      phase := .idle, raced := [] }

/-- R50, R142: an encoder command whose frame would pass OUT_CAP completes with CapacityError (5), OUT_CAPACITY (9), and
changes no buffer. -/
def Obligations.EncoderCommandsThatDoNotFitFail : Prop :=
  ∀ (s : State) (sn : Snapshot) (i : Instr) (frame : List Byte), s.phase = .busy sn →
    encoderFrame sn i = some frame → s.params.outCap < s.regs.outLen + frame.length →
    exec i s = .next { s with
      regs := { s.regs with err := true, errInfo := { code := 5#8, detail := 9#8, op := opField sn.cmd } }
      phase := .idle, raced := [] }

/-- R141, R85: the stream after an encoder command that completes without error is the stream before it with the frame at its
end, read back byte by byte. -/
def Obligations.EncoderCommandsAppendToTheStream : Prop :=
  ∀ (s : State) (sn : Snapshot) (i : Instr) (frame : List Byte), s.phase = .busy sn →
    encoderFrame sn i = some frame → s.regs.outLen + frame.length ≤ s.params.outCap →
    ∃ t, exec i s = .next t ∧ t.regs.outLen = s.regs.outLen + frame.length ∧ t.regs.done = true ∧
      t.regs.err = s.regs.err ∧ t.phase = .idle ∧
      t.out.readRun .out 0 t.regs.outLen = s.out.readRun .out 0 s.regs.outLen ++ frame

/-- Frame of INIT, JUSTIFY, FEED and RHDR (R141, R142): the bytes stored are those of the frame from OUT_LEN on, none when the
command fails; every other OUT byte, BM, SRC and every register but OUT_LEN, DONE, ERR and ERR_INFO is unchanged. -/
def Obligations.EncoderCommandsFrame : Prop :=
  ∀ (s t : State) (sn : Snapshot) (i : Instr), s.phase = .busy sn →
    (i = .init ∨ (∃ pos, i = .justify pos) ∨ i = .feed ∨ ∃ mode, i = .rhdr mode) → exec i s = .next t →
    t.params = s.params ∧ t.src = s.src ∧ t.bm = s.bm ∧ t.port = s.port ∧ t.host = s.host ∧ t.sched = s.sched ∧
    t.regs = { s.regs with
      outLen := t.regs.outLen, done := t.regs.done, err := t.regs.err, errInfo := t.regs.errInfo } ∧
    (∀ frame, encoderFrame sn i = some frame → ∀ a, (a < s.regs.outLen ∨ s.regs.outLen + frame.length ≤ a) →
      t.out.read .out a = s.out.read .out a) ∧
    ((encoderFrame sn i = none ∨ ∃ frame, encoderFrame sn i = some frame ∧
        s.params.outCap < s.regs.outLen + frame.length) →
      t.out = s.out ∧ t.regs.outLen = s.regs.outLen)

/-! ### The transform step -/

/-- R185: the target height is the floor, exactly: `T ≤ H*384/W < T+1`, at most 25165440 for 16-bit dimensions, and the bitmap
has 384 dots, 48 bytes, in each of its `T` rows. -/
def Obligations.TargetHeightIsTheExactFloor : Prop :=
  ∀ W H : Nat, 0 < W → W < 65536 → H < 65536 →
    targetHeight W H = H * 384 / W ∧
    targetHeight W H * W ≤ H * 384 ∧ H * 384 < (targetHeight W H + 1) * W ∧ H * 384 < 2 ^ 25 ∧
    targetHeight W H ≤ 25165440 ∧
    ∀ (K : Kernel) (S : Nat → Byte), (bitmap K W H (targetHeight W H) S).length * 8 = 384 * targetHeight W H

/-- R189: the integer form of the kernel is the rational form, rounded half up. -/
def Obligations.BilinearIntegerFormIsTheRationalForm : Prop :=
  ∀ (W H T : Nat) (S : Nat → Byte) (x y : Nat), 0 < W → 0 < H → 0 < T →
    ((bilinearNat W H T S x y : Nat) : Int) = ⌊bilinearMean W H T S x y + 1 / 2⌋

/-- R191, R190: the hardware's kernel has P1 (its value is in 0..255 before it is put in a byte, its taps are below W*H, it
depends on its taps alone), P2 and P3; and its taps at `(x, y)` are exactly the four indices of R190, those of weight 0
included, with x0, x1, y0 and y1 as the integer form of R189 gives them. -/
def Obligations.HardwareKernelIsLawful : Prop :=
  Kernel.Lawful resample ∧
  (∀ (W H T : Nat) (S : Nat → Byte) (x y : Nat), 0 < T →
    bilinearNat W H T S x y ≤ 255 ∧ (resample.value W H T S x y).toNat = bilinearNat W H T S x y) ∧
  ∀ W H T x y i : Nat, 0 < W → 0 < H → 0 < T →
    let x0 : Nat := (min (max ((2 * x + 1) * W - 384 : Int) 0) (768 * (W - 1)) / 768).toNat
    let x1 : Nat := min (x0 + 1) (W - 1)
    let y0 : Nat := (min (max ((2 * y + 1) * H - T : Int) 0) (2 * T * (H - 1)) / (2 * T)).toNat
    let y1 : Nat := min (y0 + 1) (H - 1)
    (i ∈ resample.taps W H T x y ↔
      i = y0 * W + x0 ∨ i = y0 * W + x1 ∨ i = y1 * W + x0 ∨ i = y1 * W + x1)

/-- R195, R196, R197: XFORM of a ready source completes without error; pixel `(x, y)` of the bitmap is bit `7 - (x mod 8)` of
byte `48*y + x div 8`, set exactly when the resampled gray value is at most 127; the bytes from `48*T` on keep their values;
BM_H = T and BM_VALID = 1. -/
def Obligations.XformWritesTheThresholdedBitmap : Prop :=
  ∀ (s : State) (sn : Snapshot), s.phase = .busy sn → SourceReady s sn.w.toNat sn.h.toNat →
    ∃ t, exec .xform s = .next t ∧
      t.regs = { s.regs with bmH := targetHeight sn.w.toNat sn.h.toNat, bmValid := true, done := true } ∧
      t.phase = .idle ∧
      (∀ x y : Nat, x < 384 → y < targetHeight sn.w.toNat sn.h.toNat →
        (t.bm.read .bm (48 * y + x / 8)).getLsbD (7 - x % 8) =
          decide ((resample.value sn.w.toNat sn.h.toNat (targetHeight sn.w.toNat sn.h.toNat) (sample s) x y).toNat ≤ 127)) ∧
      (∀ a, 48 * targetHeight sn.w.toNat sn.h.toNat ≤ a → t.bm.read .bm a = s.bm.read .bm a)

/-- R184, R186, R198, R300: a zero dimension fails with ConversionError (2), ZERO_DIM (2), before anything else; else a bitmap taller
than BM_MAX_LINES fails with CapacityError (5), BM_CAPACITY (8), whatever the source reads would answer. BM_H = 0, BM_VALID = 0,
and no BM byte is specified any more (after ZERO_DIM too: assumption log 5). -/
def Obligations.XformRejectsDimensionsBeforeReading : Prop :=
  ∀ (s : State) (sn : Snapshot), s.phase = .busy sn →
    ((sn.w = 0#16 ∨ sn.h = 0#16) → exec .xform s = .next { s with
      bm := { epoch := s.bm.epoch + 1, cells := [] }
      regs := { s.regs with
        bmH := 0, bmValid := false, err := true, errInfo := { code := 2#8, detail := 2#8, op := opField sn.cmd } }
      phase := .idle, raced := [] }) ∧
    (sn.w ≠ 0#16 → sn.h ≠ 0#16 → s.params.bmMaxLines < sn.h.toNat * 384 / sn.w.toNat →
      exec .xform s = .next { s with
        bm := { epoch := s.bm.epoch + 1, cells := [] }
        regs := { s.regs with
          bmH := 0, bmValid := false, err := true, errInfo := { code := 5#8, detail := 8#8, op := opField sn.cmd } }
        phase := .idle, raced := [] })

/-- R193, R194, R198: the failing tap with the lowest index decides the error: Unreadable gives ConversionError (2),
SRC_UNREADABLE (3), and Decode gives InputError (3), SRC_DECODE (4). -/
def Obligations.XformReportsTheLowestFailingTap : Prop :=
  ∀ (s : State) (sn : Snapshot) (i : Nat), s.phase = .busy sn → sn.w ≠ 0#16 → sn.h ≠ 0#16 →
    targetHeight sn.w.toNat sn.h.toNat ≤ s.params.bmMaxLines →
    i ∈ allTaps resample sn.w.toNat sn.h.toNat (targetHeight sn.w.toNat sn.h.toNat) →
    (∀ j ∈ allTaps resample sn.w.toNat sn.h.toNat (targetHeight sn.w.toNat sn.h.toNat), j < i →
      ∃ b, srcRead s j = .ok b) →
    (srcRead s i = .unreadable → exec .xform s = .next { s with
      bm := { epoch := s.bm.epoch + 1, cells := [] }
      regs := { s.regs with
        bmH := 0, bmValid := false, err := true, errInfo := { code := 2#8, detail := 3#8, op := opField sn.cmd } }
      phase := .idle, raced := [] }) ∧
    (srcRead s i = .decode → exec .xform s = .next { s with
      bm := { epoch := s.bm.epoch + 1, cells := [] }
      regs := { s.regs with
        bmH := 0, bmValid := false, err := true, errInfo := { code := 3#8, detail := 4#8, op := opField sn.cmd } }
      phase := .idle, raced := [] })

/-- R193: the model looks for the lowest failing tap; the rule reads the taps once each in ascending order and stops at the
first failure. The two agree for every strictly ascending list of the taps. -/
def Obligations.AscendingReadsGiveTheSameError : Prop :=
  ∀ (K : Kernel) (s : State) (W H T : Nat) (taps : List Nat), taps.Pairwise (· < ·) →
    (∀ i, i ∈ taps ↔ ∃ x y, x < 384 ∧ y < T ∧ i ∈ K.taps W H T x y) →
    sourceError K s W H T = taps.findSome? (srcReadError s)

/-- R201: a positive source with `H*384 < W` has no target line. XFORM then succeeds although every sample read might fail: it
writes no BM byte and leaves BM_H = 0 and BM_VALID = 1. -/
def Obligations.XformOfAZeroHeightSucceeds : Prop :=
  ∀ (s : State) (sn : Snapshot), s.phase = .busy sn → sn.w ≠ 0#16 → sn.h ≠ 0#16 →
    sn.h.toNat * 384 < sn.w.toNat →
    exec .xform s = .next { s with
      regs := { s.regs with bmH := 0, bmValid := true, done := true }
      phase := .idle, raced := [] } ∧
    targetHeight 385 1 = 0 ∧ targetHeight 65535 170 = 0

/-- R203: under every kernel that has the properties of R191, and so under the hardware's, a source whose samples are all `c`
gives a bitmap whose bytes are all 0x00 for `c ≥ 128` and all 0xFF for `c ≤ 127`. -/
def Obligations.SolidSourcesGiveSolidBitmaps : Prop :=
  (∀ (K : Kernel) (W H : Nat) (S : Nat → Byte) (c : Byte), Kernel.Lawful K → 0 < W → 0 < H →
    (∀ i, i < W * H → S i = c) →
    ∀ b ∈ bitmap K W H (targetHeight W H) S, b = if 128 ≤ c.toNat then 0x00#8 else 0xFF#8) ∧
  (∀ (s : State) (sn : Snapshot) (c : Byte), s.phase = .busy sn → SourceReady s sn.w.toNat sn.h.toNat →
    (∀ i, i < sn.w.toNat * sn.h.toNat → srcRead s i = .ok c) →
    ∃ t, exec .xform s = .next t ∧ ∀ a, a < 48 * targetHeight sn.w.toNat sn.h.toNat →
      t.bm.read .bm a = if 128 ≤ c.toNat then 0x00#8 else 0xFF#8)

/-- R191 P3, R188: a source 384 samples wide gives the same bits under every lawful kernel: each sample, thresholded. -/
def Obligations.FullWidthBitsDoNotDependOnTheKernel : Prop :=
  ∀ (K : Kernel) (H : Nat) (S : Nat → Byte), Kernel.Lawful K → 0 < H →
    targetHeight 384 H = H ∧
    ∀ x y : Nat, x < 384 → y < H →
      ∃ b, (bitmap K 384 H (targetHeight 384 H) S)[48 * y + x / 8]? = some b ∧
        b.getLsbD (7 - x % 8) = decide ((S (y * 384 + x)).toNat ≤ 127)

/-- Frame of XFORM (R180, R197, R198): OUT, SRC and every register but BM_H, BM_VALID, DONE, ERR and ERR_INFO are unchanged; when
it completes without error no BM byte outside the `48*T` bytes of the bitmap changes. -/
def Obligations.XformFrame : Prop :=
  ∀ (s t : State) (sn : Snapshot), s.phase = .busy sn → exec .xform s = .next t →
    t.params = s.params ∧ t.src = s.src ∧ t.out = s.out ∧ t.port = s.port ∧ t.host = s.host ∧ t.sched = s.sched ∧
    t.regs = { s.regs with
      bmH := t.regs.bmH, bmValid := t.regs.bmValid, done := t.regs.done, err := t.regs.err,
      errInfo := t.regs.errInfo } ∧
    (t.regs.bmValid = true → ∀ a, 48 * targetHeight sn.w.toNat sn.h.toNat ≤ a →
      t.bm.read .bm a = s.bm.read .bm a)

/-! ### The stream assembler -/

/-- R236, R237, R240, R124: GEN with what it needs completes without error: OUT from address 0 holds exactly
INIT, JUSTIFY center, the blocks of the bitmap rows and FEED; OUT_LEN = 8 + 8B + 48T, BLOCKS = B = ceil(T/255), BM_H = T,
BM_VALID = 1; the bitmap is the one XFORM writes; the bytes above the stream keep their values. -/
def Obligations.GenBuildsTheWholeStream : Prop :=
  ∀ (s : State) (sn : Snapshot), s.phase = .busy sn → GenReady s sn →
    ∃ t, exec .gen s = .next t ∧
      t.regs = { s.regs with
        bmH := targetHeight sn.w.toNat sn.h.toNat, bmValid := true, done := true
        outLen := streamLength (targetHeight sn.w.toNat sn.h.toNat)
        blocks := blockCount (targetHeight sn.w.toNat sn.h.toNat) } ∧
      t.phase = .idle ∧
      t.out.readRun .out 0 (streamLength (targetHeight sn.w.toNat sn.h.toNat)) =
        (genSegments (fun r => t.bm.readRun .bm (48 * r) 48) (targetHeight sn.w.toNat sn.h.toNat)
          (BitVec.ofNat 8 sn.genFeed.toNat)).flatMap Segment.bytes ∧
      (∀ a, streamLength (targetHeight sn.w.toNat sn.h.toNat) ≤ a → t.out.read .out a = s.out.read .out a) ∧
      (∀ x, exec .xform s = .next x → t.bm = x.bm)

/-- R123, R124: whoever reads the bytes of a GEN stream frame by frame, each length told from the leading bytes, gets back exactly
the parts of the grammar, with every block's rows. -/
def Obligations.GenStreamReadsBackAsItsGrammar : Prop :=
  ∀ (row : Nat → List Byte) (T : Nat) (n : Byte) (fuel : Nat), (∀ r, (row r).length = 48) → T + 3 ≤ fuel →
    readStream fuel ((genSegments row T n).flatMap Segment.bytes) = some (genSegments row T n)

/-- R233, R234, R237: the blocks of `T` lines are `ceil(T/255)`, each declares 1 to 255 lines and carries `48*k` bytes, the declared
lines sum to `T`, and all declare 255 lines when `T` is a multiple of 255. -/
def Obligations.BlocksDeclareTheLinesOfTheBitmap : Prop :=
  ∀ (row : Nat → List Byte) (T : Nat), (∀ r, (row r).length = 48) →
    ∃ counts : List Nat,
      (rasterSegments row T T 0).map Segment.shape = counts.map (fun k => some (0#8, 48, k, 48 * k)) ∧
      counts.length = (T + 254) / 255 ∧ (∀ k ∈ counts, 1 ≤ k ∧ k ≤ 255) ∧ counts.sum = T ∧
      (T % 255 = 0 → counts = List.replicate (T / 255) 255)

/-- R242: in a successful GEN stream the header of block `i` starts at `5 + 12248*i`, its data 8 bytes later, and the feed frame at
`L - 3`. -/
def Obligations.GenBlockOffsets : Prop :=
  ∀ (s : State) (sn : Snapshot), s.phase = .busy sn → GenReady s sn →
    ∃ t, exec .gen s = .next t ∧
      (∀ i, i < blockCount (targetHeight sn.w.toNat sn.h.toNat) →
        let k := min (targetHeight sn.w.toNat sn.h.toNat - 255 * i) 255
        t.out.readRun .out (5 + 12248 * i) 8 =
          [0x1D#8, 0x76#8, 0x30#8, 0x00#8, 0x30#8, 0x00#8, BitVec.ofNat 8 k, 0x00#8] ∧
        ∀ j, j < 48 * k → t.out.read .out (5 + 12248 * i + 8 + j) = t.bm.read .bm (48 * (255 * i) + j)) ∧
      t.out.readRun .out (t.regs.outLen - 3) 3 = [0x1B#8, 0x64#8, BitVec.ofNat 8 sn.genFeed.toNat]

/-- R238: a GEN of a zero-line bitmap completes without error with the eight bytes of init, justify and feed, and BLOCKS = 0. -/
def Obligations.GenOfAZeroHeightEmitsEightBytes : Prop :=
  ∀ (s : State) (sn : Snapshot), s.phase = .busy sn → sn.w ≠ 0#16 → sn.h ≠ 0#16 →
    sn.h.toNat * 384 < sn.w.toNat → 8 ≤ s.params.outCap → 0 ≤ sn.genFeed → sn.genFeed ≤ 255 →
    ∃ t, exec .gen s = .next t ∧
      t.regs = { s.regs with outLen := 8, blocks := 0, bmH := 0, bmValid := true, done := true } ∧
      t.bm = s.bm ∧
      t.out.readRun .out 0 8 =
        [0x1B#8, 0x40#8, 0x1B#8, 0x61#8, 0x01#8, 0x1B#8, 0x64#8, BitVec.ofNat 8 sn.genFeed.toNat]

/-- R231: the feed value is 4 when the snapshot's FEED_DEFAULT is 1, and the signed FEED operand when it is 0; with the default
GEN never fails with FEED_RANGE (detail 1). -/
def Obligations.GenTakesTheDefaultFeed : Prop :=
  ∀ (s : State) (sn : Snapshot), s.phase = .busy sn →
    sn.genFeed = (if sn.feedDefault = true then 4 else sn.feed.toInt) ∧
    (sn.feedDefault = true → s.regs.errInfo.detail ≠ 1#8 →
      ∀ t, exec .gen s = .next t → t.regs.errInfo.detail ≠ 1#8)

/-- R239, R300: a GEN whose transform step fails reports the error XFORM reports, with OUT_LEN = 0, BLOCKS = 0, BM_H = 0 and
BM_VALID = 0, and leaves every OUT and BM byte unspecified, whatever its feed value. -/
def Obligations.GenReportsTheTransformError : Prop :=
  ∀ (s x : State) (sn : Snapshot), s.phase = .busy sn → s.regs.err = false → exec .xform s = .next x → x.regs.err = true →
    exec .gen s = .next { s with
      out := { epoch := s.out.epoch + 1, cells := [] }
      bm := { epoch := s.bm.epoch + 1, cells := [] }
      regs := { s.regs with
        bmH := 0, bmValid := false, outLen := 0, blocks := 0, err := true, errInfo := x.regs.errInfo }
      phase := .idle, raced := [] }

/-- R230, R235, R239, R300: a GEN whose transform step succeeds fails with CapacityError (5), OUT_CAPACITY (9), when its init,
justify, header and data bytes do not fit, whatever its feed value; else with ParameterError (1), FEED_RANGE (1), when the feed
value is out of range; else with OUT_CAPACITY when the feed frame does not fit. OUT_LEN = 0, BLOCKS = 0, OUT is unspecified, and
the bitmap stays as XFORM leaves it. -/
def Obligations.GenAssemblyErrorsInOrder : Prop :=
  ∀ (s : State) (sn : Snapshot) (T : Nat), s.phase = .busy sn → SourceReady s sn.w.toNat sn.h.toNat →
    T = targetHeight sn.w.toNat sn.h.toNat →
    ∃ x, exec .xform s = .next x ∧
      ∀ code detail : Byte,
        ((s.params.outCap < 5 + 8 * blockCount T + 48 * T ∧ code = 5#8 ∧ detail = 9#8) ∨
          (5 + 8 * blockCount T + 48 * T ≤ s.params.outCap ∧ (sn.genFeed < 0 ∨ 255 < sn.genFeed) ∧
            code = 1#8 ∧ detail = 1#8) ∨
          (5 + 8 * blockCount T + 48 * T ≤ s.params.outCap ∧ 0 ≤ sn.genFeed ∧ sn.genFeed ≤ 255 ∧
            s.params.outCap < 8 + 8 * blockCount T + 48 * T ∧ code = 5#8 ∧ detail = 9#8)) →
        exec .gen s = .next { s with
          out := { epoch := s.out.epoch + 1, cells := [] }
          bm := x.bm
          regs := { s.regs with
            bmH := T, bmValid := true, outLen := 0, blocks := 0
            err := true, errInfo := { code := code, detail := detail, op := opField sn.cmd } }
          phase := .idle, raced := [] }

/-- 10_state.md ("a command's output depends only on its snapshot and on the memory spaces it reads"), R240, R243: two engines
that agree on the parameters, the source and the operands GEN takes produce the same stream, counts and bitmap, whatever OUT,
BM, OUT_LEN, the header operands and the other registers held before. -/
def Obligations.GenDependsOnItsOperandsAndSourceAlone : Prop :=
  ∀ (s1 s2 t1 t2 : State) (sn1 sn2 : Snapshot), s1.phase = .busy sn1 → s2.phase = .busy sn2 →
    s1.params = s2.params → s1.src = s2.src → s1.port = s2.port → s1.raced = s2.raced →
    sn1.w = sn2.w → sn1.h = sn2.h → sn1.feed = sn2.feed → sn1.feedDefault = sn2.feedDefault →
    s1.regs.err = false → s2.regs.err = false → s1.regs.done = false → s2.regs.done = false →
    exec .gen s1 = .next t1 → exec .gen s2 = .next t2 →
    t1.regs.outLen = t2.regs.outLen ∧ t1.regs.blocks = t2.regs.blocks ∧ t1.regs.bmH = t2.regs.bmH ∧
    t1.regs.bmValid = t2.regs.bmValid ∧ t1.regs.done = t2.regs.done ∧ t1.regs.err = t2.regs.err ∧
    (t1.regs.err = true → t1.regs.errInfo.code = t2.regs.errInfo.code ∧
      t1.regs.errInfo.detail = t2.regs.errInfo.detail) ∧
    t1.out.readRun .out 0 t1.regs.outLen = t2.out.readRun .out 0 t2.regs.outLen ∧
    t1.bm.readRun .bm 0 (48 * t1.regs.bmH) = t2.bm.readRun .bm 0 (48 * t2.regs.bmH)

/-- Frame of GEN (R236, R239): SRC and every register but OUT_LEN, BLOCKS, BM_H, BM_VALID, DONE, ERR and ERR_INFO are unchanged;
no BM byte outside the bitmap changes unless the transform step fails, and no OUT byte outside the stream unless GEN fails. -/
def Obligations.GenFrame : Prop :=
  ∀ (s t : State) (sn : Snapshot), s.phase = .busy sn → s.regs.err = false → exec .gen s = .next t →
    t.params = s.params ∧ t.src = s.src ∧ t.port = s.port ∧ t.host = s.host ∧ t.sched = s.sched ∧
    t.regs = { s.regs with
      outLen := t.regs.outLen, blocks := t.regs.blocks, bmH := t.regs.bmH, bmValid := t.regs.bmValid
      done := t.regs.done, err := t.regs.err, errInfo := t.regs.errInfo } ∧
    (t.regs.bmValid = true → ∀ a, 48 * targetHeight sn.w.toNat sn.h.toNat ≤ a →
      t.bm.read .bm a = s.bm.read .bm a) ∧
    (t.regs.err = false → ∀ a, streamLength (targetHeight sn.w.toNat sn.h.toNat) ≤ a →
      t.out.read .out a = s.out.read .out a)

/-! ### Command control, errors and flags -/

/-- R275: CLEAR sets OUT_LEN to 0 and completes without error; no OUT byte, and nothing else but DONE, changes. -/
def Obligations.ClearEmptiesTheStream : Prop :=
  ∀ (s : State) (sn : Snapshot), s.phase = .busy sn →
    exec .clear s = .next { s with
      regs := { s.regs with outLen := 0, done := true }, phase := .idle, raced := [] }

/-- R271, R272, R46: a host write of `w` to CMD while BUSY = 0 and ERR = 0 is accepted: CMD holds `w`, the snapshot holds the
operands of that instant, DONE is cleared, and the engine is Busy. While BUSY = 1 or ERR = 1 it is ignored, and sets
REJECT. -/
def Obligations.CommandWritesAreAcceptedOrRejected : Prop :=
  (∀ (s : State) (w : Word), s.busy = false → s.regs.err = false →
    ∃ t, hostWrite s .reg 0x0C 4 w = .ok t ∧ t.busy = true ∧
      t.regs = { s.regs with cmd := w, done := false } ∧
      t.phase = .busy {
        cmd := w, feedDefault := s.regs.feedDefault, w := s.regs.srcW, h := s.regs.srcH
        feed := s.regs.feed, wb := s.regs.hdrWb, lines := s.regs.hdrLines } ∧
      t.src = s.src ∧ t.bm = s.bm ∧ t.out = s.out) ∧
  ∀ (s : State) (w : Word), (s.busy = true ∨ s.regs.err = true) →
    hostWrite s .reg 0x0C 4 w = .ok { s with regs := { s.regs with reject := true } }

/-- R46, R353: operand writes while a command runs do not reach it: running the command after the write gives what running it
before the write gives, with the operand register written. -/
def Obligations.OperandWritesDoNotReachTheRunningCommand : Prop :=
  ∀ (s t : State) (sn : Snapshot) (i : Instr) (r : Reg) (v : Word), s.phase = .busy sn →
    (r = .srcW ∨ r = .srcH ∨ r = .feed ∨ r = .hdrWb ∨ r = .hdrLines ∨ (r = .ctrl ∧ v.getLsbD 31 = false)) →
    exec i s = .next t → exec i (regWrite v s r) = .next (regWrite v t r)

/-- R273, R274, R276, R295: every accepted command completes in one engine step, Idle again, either without error (DONE = 1, ERR and
ERR_INFO as they were) or with one error (ERR = 1, DONE as it was, ERR_INFO the kind and detail of R291 and R292 and the
opcode). -/
def Obligations.EveryAcceptedCommandCompletes : Prop :=
  ∀ (s : State) (sn : Snapshot), s.phase = .busy sn →
    ∃ t, engineTurn s = .next t ∧ t.phase = .idle ∧ t.raced = [] ∧ t.regs.cmd = s.regs.cmd ∧
      ((t.regs.done = true ∧ t.regs.err = s.regs.err ∧ t.regs.errInfo = s.regs.errInfo) ∨
        (t.regs.err = true ∧ t.regs.done = s.regs.done ∧ t.regs.errInfo.op = opField sn.cmd ∧
          (t.regs.errInfo.code.toNat, t.regs.errInfo.detail.toNat) ∈
            [(1, 1), (2, 2), (2, 3), (3, 4), (4, 5), (4, 6), (4, 7), (5, 8), (5, 9)]))

/-- R293: no command raises an error outside its row. -/
def Obligations.CommandsRaiseOnlyTheirOwnErrors : Prop :=
  ∀ (s t : State) (sn : Snapshot), s.phase = .busy sn → s.regs.err = false → engineTurn s = .next t →
    t.regs.err = true → ∃ d ∈ canRaise sn.cmd, t.regs.errInfo = errorRecord sn.cmd d

/-- R296: what a failed command leaves in the buffers and the result registers. -/
def Obligations.FailureEffects : Prop :=
  ∀ (s t : State) (sn : Snapshot), s.phase = .busy sn → s.regs.err = false → engineTurn s = .next t →
    t.regs.err = true →
    let kept := t.out = s.out ∧ t.regs.outLen = s.regs.outLen ∧ t.bm = s.bm ∧ t.regs.bmH = s.regs.bmH ∧
      t.regs.blocks = s.regs.blocks ∧ t.regs.bmValid = s.regs.bmValid
    let bmLost := t.regs.bmH = 0 ∧ t.regs.bmValid = false ∧ t.bm = { epoch := s.bm.epoch + 1, cells := [] }
    match decodeWord sn.cmd with
    | .error _ => kept
    | .ok .init => kept
    | .ok (.justify _) => kept
    | .ok .feed => kept
    | .ok (.rhdr _) => kept
    | .ok .clear => False
    | .ok .xform => bmLost ∧ t.out = s.out ∧ t.regs.outLen = s.regs.outLen ∧ t.regs.blocks = s.regs.blocks
    | .ok .gen =>
      t.regs.outLen = 0 ∧ t.regs.blocks = 0 ∧ t.out = { epoch := s.out.epoch + 1, cells := [] } ∧
        ((¬ SourceReady s sn.w.toNat sn.h.toNat ∧ bmLost) ∨
          (SourceReady s sn.w.toNat sn.h.toNat ∧ t.regs.bmH = targetHeight sn.w.toNat sn.h.toNat ∧
            t.regs.bmValid = true ∧ ∃ x, exec .xform s = .next x ∧ t.bm = x.bm))

/-- R56, R42, R43, R45: a host write of `v` to STATUS clears exactly the bits 1, 2 and 4 that `v` sets, leaves every other bit, and
clears ERR_INFO when bit 2 is set; it changes no other register, no memory and no phase. -/
def Obligations.StatusWritesClearWhatTheySet : Prop :=
  ∀ (s : State) (v : Word),
    ∃ t, hostWrite s .reg 0x08 4 v = .ok t ∧
      (∀ k, k < 32 → (statusWord t).getLsbD k =
        ((statusWord s).getLsbD k && !(v.getLsbD k && (k == 1 || k == 2 || k == 4)))) ∧
      t.regs.errInfo = (if v.getLsbD 2 = true then ErrInfo.none else s.regs.errInfo) ∧
      t = { s with regs := { s.regs with
        done := t.regs.done, err := t.regs.err, reject := t.regs.reject, errInfo := t.regs.errInfo } }

/-- R298, R299: the return from an error is a write of 1 to STATUS bit 2: ERR_INFO reads 0, nothing else but ERR changes, and the
next CMD write is accepted. -/
def Obligations.ReturnFromAnErrorAcceptsTheNextCommand : Prop :=
  ∀ (s : State) (w : Word), s.busy = false → s.regs.err = true →
    ∃ t u, hostWrite s .reg 0x08 4 0x00000004#32 = .ok t ∧
      t = { s with regs := { s.regs with err := false, errInfo := { code := 0#8, detail := 0#8, op := 0#8 } } } ∧
      regValue t .errInfo = 0#32 ∧
      hostWrite t .reg 0x0C 4 w = .ok u ∧ u.busy = true ∧ u.regs.cmd = w ∧ u.regs.reject = t.regs.reject

/-- R305, R34: IRQ is asserted exactly when IRQ_EN = 1 and DONE or ERR is 1; a write of 1 to the set ones of STATUS
bits 1 and 2, the clearing of IRQ_EN, the acceptance of a command, and both resets deassert it; REJECT does not drive it. -/
def Obligations.InterruptLevel : Prop :=
  (∀ s : State, irq s = true ↔ s.regs.irqEn = true ∧ (s.regs.done = true ∨ s.regs.err = true)) ∧
  (∀ (s : State) (v : Word), (v.getLsbD 1 = true ∨ s.regs.done = false) →
    (v.getLsbD 2 = true ∨ s.regs.err = false) → irq (regWrite v s .status) = false) ∧
  (∀ (s : State) (v : Word), v.getLsbD 31 = false → v.getLsbD 1 = false → irq (regWrite v s .ctrl) = false) ∧
  (∀ (s : State) (w : Word), s.busy = false → s.regs.err = false → irq (regWrite w s .cmd) = false) ∧
  (∀ (s : State) (v : Word), v.getLsbD 31 = true → irq (regWrite v s .ctrl) = false) ∧
  (∀ s : State, irq (powerOn s) = false) ∧
  (∀ (s : State) (b : Bool), irq { s with regs := { s.regs with reject := b } } = irq s)

/-! ### Registers and reset -/

/-- 10_state.md section 4, R31 to R53, R340: what each register reads right after reset, and the Idle phase. -/
def Obligations.RegistersReadTheirResetValues : Prop :=
  Reg.all.map (regValue State.reset) =
    [0x54303207#32, 0x00000001#32, 0#32, 0#32, 0#32, 0#32, 0#32, 0x00000004#32, 0#32, 0#32, 0#32, 0#32, 0#32,
      0#32, 0#32, 0#32] ∧
  State.reset.phase = .idle ∧ irq State.reset = false

/-- R340: a power cycle leaves every register reading its reset value, the engine Idle, IRQ deasserted, and every byte of SRC, BM
and OUT unspecified. -/
def Obligations.PowerOnRestoresTheResetState : Prop :=
  ∀ s : State, ∃ t, takeTurn .powerOn s = .next t ∧ (∀ r : Reg, regValue t r = regValue State.reset r) ∧
    t.phase = .idle ∧ irq t = false ∧ (∀ a, t.src.listed a = false) ∧ (∀ a, t.bm.listed a = false) ∧
    (∀ a, t.out.listed a = false) ∧ t.src.epoch = s.src.epoch + 1 ∧ t.bm.epoch = s.bm.epoch + 1 ∧
    t.out.epoch = s.out.epoch + 1

/-- R342, R35: a CTRL write with bit 31 = 1 resets the engine, Busy or not, whatever the other bits: every register reads its reset
value, the engine is Idle with no snapshot, neither DONE nor ERR is set, BM and OUT are unspecified, SRC is not changed. -/
def Obligations.SoftResetRestoresTheResetState : Prop :=
  ∀ (s : State) (v : Word), v.getLsbD 31 = true →
    ∃ t, hostWrite s .reg 0x04 4 v = .ok t ∧
      (∀ r : Reg, regValue t r = regValue State.reset r) ∧ t.phase = .idle ∧ t.regs.done = false ∧ t.regs.err = false ∧
      (∀ a, t.bm.listed a = false) ∧ (∀ a, t.out.listed a = false) ∧ t.src = s.src ∧ t.host = s.host ∧
      t.params = s.params

/-- R81, R90, R53, R48: the sixteen registers stand at the offsets of the register map, one at each multiple of 4 below 0x40,
and nowhere else; ERR_INFO reads ERR_CODE
in bits [7:0], ERR_DETAIL in [15:8], ERR_OP in [23:16] and 0 above. -/
def Obligations.RegisterLayout : Prop :=
  [0x00, 0x04, 0x08, 0x0C, 0x10, 0x14, 0x18, 0x1C, 0x20, 0x24, 0x28, 0x2C, 0x30, 0x34, 0x38, 0x3C].map regAt =
    [some .id, some .ctrl, some .status, some .cmd, some .errInfo, some .srcW, some .srcH, some .feed, some .hdrWb,
      some .hdrLines, some .bmH, some .outLen, some .blocks, some .rsv34, some .rsv38, some .rsv3C] ∧
  (∀ r : Reg, regAt r.offset = some r) ∧
  (∀ a : Nat, (∃ r, regAt a = some r) ↔ a % 4 = 0 ∧ a < 0x40) ∧
  (∀ s : State, (regValue s .errInfo).toNat =
    s.regs.errInfo.code.toNat + 256 * s.regs.errInfo.detail.toNat + 65536 * s.regs.errInfo.op.toNat)

/-- R31, R48, R49, R51, R52, R53: a write to a read-only or reserved register changes nothing; ID reads its constant and the
reserved offsets read 0 in every state. -/
def Obligations.ReadOnlyRegistersIgnoreWrites : Prop :=
  ∀ (s : State) (v : Word) (r : Reg),
    (r = .id ∨ r = .errInfo ∨ r = .bmH ∨ r = .outLen ∨ r = .blocks ∨ r = .rsv34 ∨ r = .rsv38 ∨ r = .rsv3C) →
    hostWrite s .reg r.offset 4 v = .ok s ∧
    (∃ t, hostRead s .reg 0x00 4 = .ok (0x54303207#32, t)) ∧
    (∃ t, hostRead s .reg 0x34 4 = .ok (0#32, t)) ∧ (∃ t, hostRead s .reg 0x38 4 = .ok (0#32, t)) ∧
    (∃ t, hostRead s .reg 0x3C 4 = .ok (0#32, t))

/-- R32, R35 to R40: what each operand register reads after a write of `v`, Busy or not: SRC_W, SRC_H, HDR_WB and HDR_LINES the low
16 bits, FEED all 32, CTRL (bit 31 = 0) the low 2; every other register reads as before, and no memory changes. -/
def Obligations.OperandRegistersReadBackTheirFields : Prop :=
  ∀ (s : State) (v : Word),
    regValue (regWrite v s .srcW) .srcW = v &&& 0x0000FFFF#32 ∧
    regValue (regWrite v s .srcH) .srcH = v &&& 0x0000FFFF#32 ∧
    regValue (regWrite v s .hdrWb) .hdrWb = v &&& 0x0000FFFF#32 ∧
    regValue (regWrite v s .hdrLines) .hdrLines = v &&& 0x0000FFFF#32 ∧
    regValue (regWrite v s .feed) .feed = v ∧
    (v.getLsbD 31 = false → regValue (regWrite v s .ctrl) .ctrl = v &&& 0x00000003#32) ∧
    ∀ r r' : Reg, (r = .srcW ∨ r = .srcH ∨ r = .hdrWb ∨ r = .hdrLines ∨ r = .feed ∨
        (r = .ctrl ∧ v.getLsbD 31 = false)) → r' ≠ r →
      regValue (regWrite v s r) r' = regValue s r' ∧ (regWrite v s r).src = s.src ∧ (regWrite v s r).bm = s.bm ∧
        (regWrite v s r).out = s.out ∧ (regWrite v s r).phase = s.phase

/-! ### Host accesses to memory -/

/-- R87, R90: a host access has a meaning exactly when it is inside the host contract, reading and writing. R90 refuses other
widths than 4 for REG alone: that SRC, BM and OUT refuse widths other than 1, 2 and 4 is the model's choice (assumption
log 15). -/
def Obligations.AccessesOutsideTheContractAreRefused : Prop :=
  ∀ (s : State) (sp : Space) (addr n : Nat) (v : Word),
    ((∃ r, hostRead s sp addr n = .ok r) ↔ accessLegal s.params sp addr n) ∧
    ((∃ t, hostWrite s sp addr n v = .ok t) ↔ accessLegal s.params sp addr n)

/-- R83, R87, R93. An engine read of SRC index `i` answers Unreadable at SRC_CAP and above; below it, with no race on `i`, the
answer the source port lists, and with none listed Ok of the SRC byte (the port as a table over plain memory is the model's
choice, assumption log 16). After a host write SRC holds, little-endian, byte `k` of the value at `addr + k`, the bytes
outside are unchanged, and a read of the same bytes gives the value's low `n` bytes back; the command of a CMD write
accepted next reads those bytes where the port lists no answer. -/
def Obligations.SourceWritesReadBackLittleEndian : Prop :=
  (∀ (s : State) (i : Nat),
    (s.params.srcCap ≤ i → srcRead s i = .unreadable) ∧
    (i < s.params.srcCap → lookup s.raced i = none →
      (∀ a, lookup s.port i = some a → srcRead s i = a) ∧
      (lookup s.port i = none → srcRead s i = .ok (s.src.read .src i)))) ∧
  ∀ (s : State) (addr n : Nat) (v : Word), (n = 1 ∨ n = 2 ∨ n = 4) → addr + n ≤ s.params.srcCap →
    ∃ t, hostWrite s .src addr n v = .ok t ∧
      (∀ k, k < n → (t.src.read .src (addr + k)).toNat = v.toNat / 256 ^ k % 256) ∧
      (∀ a, (a < addr ∨ addr + n ≤ a) → t.src.read .src a = s.src.read .src a) ∧
      (∃ r, hostRead t .src addr n = .ok r ∧ r.1.toNat = v.toNat % 256 ^ n) ∧
      t.regs = s.regs ∧ t.phase = s.phase ∧ t.bm = s.bm ∧ t.out = s.out ∧
      (s.busy = false → s.regs.err = false → ∀ w : Word, ∃ u, hostWrite t .reg 0x0C 4 w = .ok u ∧ u.busy = true ∧
        ∀ k, k < n → lookup s.port (addr + k) = none →
          srcRead u (addr + k) = .ok (BitVec.ofNat 8 (v.toNat / 256 ^ k)))

/-- R84, R85, R92: host writes to BM and OUT change nothing, whether or not a command runs; an Idle engine's BM and OUT read as
their bytes, little-endian; while BUSY = 1 a read of `n` bytes is any value, in the model the low `n` bytes of the next free
value, whose numbering is the model's choice (assumption log 7). -/
def Obligations.ResultSpacesReadTheirBytesAndIgnoreWrites : Prop :=
  ∀ (s : State) (sp : Space) (addr n : Nat) (v : Word), (sp = .bm ∨ sp = .out) → accessLegal s.params sp addr n →
    hostWrite s sp addr n v = .ok s ∧
    (s.busy = false → ∃ r, hostRead s sp addr n = .ok (r, s) ∧
      ∀ k, k < n → r.toNat / 256 ^ k % 256 =
        (if sp = .bm then s.bm.read .bm (addr + k) else s.out.read .out (addr + k)).toNat) ∧
    (s.busy = true → ∃ r, hostRead s sp addr n = .ok (r, { s with free := s.free + 1 }) ∧
      r.toNat = (Config.busyWord s.free).toNat % 256 ^ n)

/-- R97, in the model's form (assumption log 6): a host write to SRC bytes while a command is Busy races: the engine's read of each byte written answers a free value, a
different one for each byte, and its reads of every other index are as before. -/
def Obligations.SourceWritesWhileBusyRace : Prop :=
  ∀ (s : State) (addr n : Nat) (v : Word), s.busy = true → (n = 1 ∨ n = 2 ∨ n = 4) → addr + n ≤ s.params.srcCap →
    ∃ t, hostWrite s .src addr n v = .ok t ∧
      (∀ k, k < n → srcRead t (addr + k) = .ok (Config.raceByte (s.free + k))) ∧
      (∀ a, (a < addr ∨ addr + n ≤ a) → srcRead t a = srcRead s a) ∧
      t.regs = s.regs ∧ t.phase = s.phase

/-- R92, with the model's numbering of free values (assumption log 7): while BUSY = 1 a register read gives what the register holds, but for BM_H, OUT_LEN, BLOCKS and STATUS bit 3, and changes no
register, memory or phase. -/
def Obligations.RegisterReadsWhileBusy : Prop :=
  ∀ (s : State) (r : Reg), s.busy = true →
    ∃ v, hostRead s .reg r.offset 4 = .ok (v, { s with free := s.free + 1 }) ∧
      (r ≠ .status → r ≠ .bmH → r ≠ .outLen → r ≠ .blocks → v = regValue s r) ∧
      (r = .status → ∀ k, k ≠ 3 → v.getLsbD k = (statusWord s).getLsbD k)

/-! ### The step -/

/-- R54, R94, with the model's schedule (assumption log 8): when the engine's turn is next and the accepted word decodes to `i`, the step is the command `i` run on the state with
that turn taken off the schedule. -/
def Obligations.StepRunsTheDecodedCommand : Prop :=
  ∀ (s s' : State) (sn : Snapshot) (i : Instr), nextTurn s = (.engine, s') → s.phase = .busy sn →
    decodeWord sn.cmd = .ok i → step s = exec i s' ∧ s'.phase = .busy sn ∧ s' = { s with sched := s.sched.tail }

/-- R126, R93: what the host's turn does, statement by statement, when the accesses are inside the host contract and the names
and labels of a BIT are there. RD, OUTR and BMR bind their name and go on; WR and SRCW make their access and go on; WAIT does
`RD STATUS -> s` and goes on when bit 0 of the value is 0, else stays; a label does nothing; BIT goes to its label's place or
on; HALT ends the program; a program that has ended changes nothing. The model's choices: `s` is the name number
`waitName` and a turn is one poll (log 12), the statements `busRead`, `busWrite` and `waitIrq` (logs 13, 14), the first of equal labels (log
24), the schedule (log 8). -/
def Obligations.HostStatementsDoWhatTheyStandFor : Prop :=
  ∀ s s' : State, nextTurn s = (.host, s') →
    let pc := s'.host.pc
    let at' : Nat → State → State := fun k u => { u with host := { u.host with pc := k } }
    (s'.host.program[pc]? = none → step s = .next s') ∧
    ∀ st, s'.host.program[pc]? = some st →
      match st with
      | .read sp addr n name => ∀ v u, hostRead s' sp addr n = .ok (v, u) →
        ∃ t, step s = .next t ∧ Binds name v (pc + 1) u t
      | .write sp addr n v => ∀ u, hostWrite s' sp addr n v = .ok u → step s = .next (at' (pc + 1) u)
      | .busRead addr n name => ∀ sp off v u, s'.params.locate addr = some (sp, off) →
        hostRead s' sp off n = .ok (v, u) → ∃ t, step s = .next t ∧ Binds name v (pc + 1) u t
      | .busWrite addr n v => ∀ sp off u, s'.params.locate addr = some (sp, off) →
        hostWrite s' sp off n v = .ok u → step s = .next (at' (pc + 1) u)
      | .wait => ∃ v u t, hostRead s' .reg 0x08 4 = .ok (v, u) ∧ v.getLsbD 0 = s'.busy ∧ step s = .next t ∧
        Binds waitName v (if v.getLsbD 0 = true then pc else pc + 1) u t
      | .waitIrq => step s = .next (if irq s' = true then at' (pc + 1) s' else s')
      | .label _ => step s = .next (at' (pc + 1) s')
      | .bit name k l => ∀ v, lookup s'.host.names name = some v →
        (v.getLsbD k = false → step s = .next (at' (pc + 1) s')) ∧
        (v.getLsbD k = true → ∀ j, s'.host.program[j]? = some (.label l) →
          (∀ i, i < j → s'.host.program[i]? ≠ some (.label l)) → step s = .next (at' j s'))
      | .halt => step s = .next (at' s'.host.program.length s')

/-- R340, with the parameter values of assumption log 2: the state right after reset meets the invariant. -/
def Obligations.InvariantHoldsAtReset : Prop := Inv State.reset

/-- Every step, whoever's turn it is, keeps the invariant: the canonical memories and their bounds, the complete bitmap and stream,
the counts' limits, and what BUSY, DONE, ERR, ERR_INFO and BM_VALID say of each other. -/
def Obligations.EveryStepKeepsTheInvariant : Prop :=
  ∀ s t : State, Inv s → step s = .next t → Inv t

/-- R276, R290, R294, with the model's stops for what R86 and R126 leave open (assumption logs 9, 14, 15): the engine never
stops the machine; a step has no next state only when the host's statement is an access
outside the host contract or outside the hardware's windows, or a BIT on an unbound name or to a missing label. -/
def Obligations.OnlyTheHostProgramStopsTheMachine : Prop :=
  ∀ s : State, (∃ t, step s = .next t) ∨
    ((nextTurn s).1 = .host ∧ ∃ st, (nextTurn s).2.host.program[(nextTurn s).2.host.pc]? = some st ∧
      ((step s = .refused .unmapped ∧ ∃ addr n, ((∃ name, st = .busRead addr n name) ∨ ∃ v, st = .busWrite addr n v) ∧
          s.params.locate addr = none) ∨
        (∃ sp addr n, ((∃ name, st = .read sp addr n name) ∨ (∃ v, st = .write sp addr n v) ∨
            ∃ a, s.params.locate a = some (sp, addr) ∧ ((∃ name, st = .busRead a n name) ∨ ∃ v, st = .busWrite a n v)) ∧
          ¬ accessLegal s.params sp addr n ∧
          (step s = .refused .badRegAccess ∨ step s = .refused .badWidth ∨ step s = .refused .pastEnd)) ∨
        (∃ name k l, st = .bit name k l ∧
          (step s = .fault (.unboundName name) ∨ step s = .fault (.missingLabel l)))))
end

