-- ==== Sys2Proof/Laws/State.lean ====
section
/-! SUPPORT. One lemma per field per update of the state, so that no proof unfolds a record update. -/
namespace Sys2Proof.Machine

@[simp] theorem accept_params (w : Word) (s : State) : (accept w s).params = s.params := rfl
@[simp] theorem accept_regs (w : Word) (s : State) : (accept w s).regs = { s.regs with cmd := w, done := false } := rfl
@[simp] theorem accept_phase (w : Word) (s : State) : (accept w s).phase = .busy (takeSnapshot s.regs w) := rfl
@[simp] theorem accept_src (w : Word) (s : State) : (accept w s).src = s.src := rfl
@[simp] theorem accept_bm (w : Word) (s : State) : (accept w s).bm = s.bm := rfl
@[simp] theorem accept_out (w : Word) (s : State) : (accept w s).out = s.out := rfl
@[simp] theorem accept_port (w : Word) (s : State) : (accept w s).port = s.port := rfl
@[simp] theorem accept_raced (w : Word) (s : State) : (accept w s).raced = [] := rfl
@[simp] theorem accept_host (w : Word) (s : State) : (accept w s).host = s.host := rfl
@[simp] theorem accept_sched (w : Word) (s : State) : (accept w s).sched = s.sched := rfl
@[simp] theorem accept_free (w : Word) (s : State) : (accept w s).free = s.free := rfl

@[simp] theorem completeOk_params (s : State) : (completeOk s).params = s.params := rfl
@[simp] theorem completeOk_regs (s : State) : (completeOk s).regs = { s.regs with done := true } := rfl
@[simp] theorem completeOk_phase (s : State) : (completeOk s).phase = .idle := rfl
@[simp] theorem completeOk_src (s : State) : (completeOk s).src = s.src := rfl
@[simp] theorem completeOk_bm (s : State) : (completeOk s).bm = s.bm := rfl
@[simp] theorem completeOk_out (s : State) : (completeOk s).out = s.out := rfl
@[simp] theorem completeOk_port (s : State) : (completeOk s).port = s.port := rfl
@[simp] theorem completeOk_raced (s : State) : (completeOk s).raced = [] := rfl
@[simp] theorem completeOk_host (s : State) : (completeOk s).host = s.host := rfl
@[simp] theorem completeOk_sched (s : State) : (completeOk s).sched = s.sched := rfl
@[simp] theorem completeOk_free (s : State) : (completeOk s).free = s.free := rfl

@[simp] theorem completeError_params (sn : Snapshot) (d : ErrDetail) (s : State) : (completeError sn d s).params = s.params := rfl
@[simp] theorem completeError_regs (sn : Snapshot) (d : ErrDetail) (s : State) : (completeError sn d s).regs = { s.regs with err := true, errInfo := errorRecord sn.cmd d } := rfl
@[simp] theorem completeError_phase (sn : Snapshot) (d : ErrDetail) (s : State) : (completeError sn d s).phase = .idle := rfl
@[simp] theorem completeError_src (sn : Snapshot) (d : ErrDetail) (s : State) : (completeError sn d s).src = s.src := rfl
@[simp] theorem completeError_bm (sn : Snapshot) (d : ErrDetail) (s : State) : (completeError sn d s).bm = s.bm := rfl
@[simp] theorem completeError_out (sn : Snapshot) (d : ErrDetail) (s : State) : (completeError sn d s).out = s.out := rfl
@[simp] theorem completeError_port (sn : Snapshot) (d : ErrDetail) (s : State) : (completeError sn d s).port = s.port := rfl
@[simp] theorem completeError_raced (sn : Snapshot) (d : ErrDetail) (s : State) : (completeError sn d s).raced = [] := rfl
@[simp] theorem completeError_host (sn : Snapshot) (d : ErrDetail) (s : State) : (completeError sn d s).host = s.host := rfl
@[simp] theorem completeError_sched (sn : Snapshot) (d : ErrDetail) (s : State) : (completeError sn d s).sched = s.sched := rfl
@[simp] theorem completeError_free (sn : Snapshot) (d : ErrDetail) (s : State) : (completeError sn d s).free = s.free := rfl

@[simp] theorem softReset_params (s : State) : (softReset s).params = s.params := rfl
@[simp] theorem softReset_regs (s : State) : (softReset s).regs = Regs.reset := rfl
@[simp] theorem softReset_phase (s : State) : (softReset s).phase = .idle := rfl
@[simp] theorem softReset_src (s : State) : (softReset s).src = s.src := rfl
@[simp] theorem softReset_bm (s : State) : (softReset s).bm = s.bm.unspecified := rfl
@[simp] theorem softReset_out (s : State) : (softReset s).out = s.out.unspecified := rfl
@[simp] theorem softReset_port (s : State) : (softReset s).port = s.port := rfl
@[simp] theorem softReset_raced (s : State) : (softReset s).raced = [] := rfl
@[simp] theorem softReset_host (s : State) : (softReset s).host = s.host := rfl
@[simp] theorem softReset_sched (s : State) : (softReset s).sched = s.sched := rfl
@[simp] theorem softReset_free (s : State) : (softReset s).free = s.free := rfl

@[simp] theorem powerOn_params (s : State) : (powerOn s).params = s.params := rfl
@[simp] theorem powerOn_regs (s : State) : (powerOn s).regs = Regs.reset := rfl
@[simp] theorem powerOn_phase (s : State) : (powerOn s).phase = .idle := rfl
@[simp] theorem powerOn_src (s : State) : (powerOn s).src = s.src.unspecified := rfl
@[simp] theorem powerOn_bm (s : State) : (powerOn s).bm = s.bm.unspecified := rfl
@[simp] theorem powerOn_out (s : State) : (powerOn s).out = s.out.unspecified := rfl
@[simp] theorem powerOn_port (s : State) : (powerOn s).port = s.port := rfl
@[simp] theorem powerOn_raced (s : State) : (powerOn s).raced = [] := rfl
@[simp] theorem powerOn_host (s : State) : (powerOn s).host = s.host := rfl
@[simp] theorem powerOn_sched (s : State) : (powerOn s).sched = s.sched := rfl
@[simp] theorem powerOn_free (s : State) : (powerOn s).free = s.free := rfl

@[simp] theorem transformDone_params (T : Nat) (bytes : List Byte) (s : State) : (transformDone T bytes s).params = s.params := rfl
@[simp] theorem transformDone_regs (T : Nat) (bytes : List Byte) (s : State) : (transformDone T bytes s).regs = { s.regs with bmH := T, bmValid := true } := rfl
@[simp] theorem transformDone_phase (T : Nat) (bytes : List Byte) (s : State) : (transformDone T bytes s).phase = s.phase := rfl
@[simp] theorem transformDone_src (T : Nat) (bytes : List Byte) (s : State) : (transformDone T bytes s).src = s.src := rfl
@[simp] theorem transformDone_bm (T : Nat) (bytes : List Byte) (s : State) : (transformDone T bytes s).bm = s.bm.writeRun 0 bytes := rfl
@[simp] theorem transformDone_out (T : Nat) (bytes : List Byte) (s : State) : (transformDone T bytes s).out = s.out := rfl
@[simp] theorem transformDone_port (T : Nat) (bytes : List Byte) (s : State) : (transformDone T bytes s).port = s.port := rfl
@[simp] theorem transformDone_raced (T : Nat) (bytes : List Byte) (s : State) : (transformDone T bytes s).raced = s.raced := rfl
@[simp] theorem transformDone_host (T : Nat) (bytes : List Byte) (s : State) : (transformDone T bytes s).host = s.host := rfl
@[simp] theorem transformDone_sched (T : Nat) (bytes : List Byte) (s : State) : (transformDone T bytes s).sched = s.sched := rfl
@[simp] theorem transformDone_free (T : Nat) (bytes : List Byte) (s : State) : (transformDone T bytes s).free = s.free := rfl

@[simp] theorem transformFailed_params (s : State) : (transformFailed s).params = s.params := rfl
@[simp] theorem transformFailed_regs (s : State) : (transformFailed s).regs = { s.regs with bmH := 0, bmValid := false } := rfl
@[simp] theorem transformFailed_phase (s : State) : (transformFailed s).phase = s.phase := rfl
@[simp] theorem transformFailed_src (s : State) : (transformFailed s).src = s.src := rfl
@[simp] theorem transformFailed_bm (s : State) : (transformFailed s).bm = s.bm.unspecified := rfl
@[simp] theorem transformFailed_out (s : State) : (transformFailed s).out = s.out := rfl
@[simp] theorem transformFailed_port (s : State) : (transformFailed s).port = s.port := rfl
@[simp] theorem transformFailed_raced (s : State) : (transformFailed s).raced = s.raced := rfl
@[simp] theorem transformFailed_host (s : State) : (transformFailed s).host = s.host := rfl
@[simp] theorem transformFailed_sched (s : State) : (transformFailed s).sched = s.sched := rfl
@[simp] theorem transformFailed_free (s : State) : (transformFailed s).free = s.free := rfl

@[simp] theorem genDone_params (o : OutBuf) (blocks : Nat) (s : State) : (genDone o blocks s).params = s.params := rfl
@[simp] theorem genDone_regs (o : OutBuf) (blocks : Nat) (s : State) : (genDone o blocks s).regs = { s.regs with outLen := o.len, blocks := blocks } := rfl
@[simp] theorem genDone_phase (o : OutBuf) (blocks : Nat) (s : State) : (genDone o blocks s).phase = s.phase := rfl
@[simp] theorem genDone_src (o : OutBuf) (blocks : Nat) (s : State) : (genDone o blocks s).src = s.src := rfl
@[simp] theorem genDone_bm (o : OutBuf) (blocks : Nat) (s : State) : (genDone o blocks s).bm = s.bm := rfl
@[simp] theorem genDone_out (o : OutBuf) (blocks : Nat) (s : State) : (genDone o blocks s).out = o.mem := rfl
@[simp] theorem genDone_port (o : OutBuf) (blocks : Nat) (s : State) : (genDone o blocks s).port = s.port := rfl
@[simp] theorem genDone_raced (o : OutBuf) (blocks : Nat) (s : State) : (genDone o blocks s).raced = s.raced := rfl
@[simp] theorem genDone_host (o : OutBuf) (blocks : Nat) (s : State) : (genDone o blocks s).host = s.host := rfl
@[simp] theorem genDone_sched (o : OutBuf) (blocks : Nat) (s : State) : (genDone o blocks s).sched = s.sched := rfl
@[simp] theorem genDone_free (o : OutBuf) (blocks : Nat) (s : State) : (genDone o blocks s).free = s.free := rfl

@[simp] theorem genFailed_params (s : State) : (genFailed s).params = s.params := rfl
@[simp] theorem genFailed_regs (s : State) : (genFailed s).regs = { s.regs with outLen := 0, blocks := 0 } := rfl
@[simp] theorem genFailed_phase (s : State) : (genFailed s).phase = s.phase := rfl
@[simp] theorem genFailed_src (s : State) : (genFailed s).src = s.src := rfl
@[simp] theorem genFailed_bm (s : State) : (genFailed s).bm = s.bm := rfl
@[simp] theorem genFailed_out (s : State) : (genFailed s).out = s.out.unspecified := rfl
@[simp] theorem genFailed_port (s : State) : (genFailed s).port = s.port := rfl
@[simp] theorem genFailed_raced (s : State) : (genFailed s).raced = s.raced := rfl
@[simp] theorem genFailed_host (s : State) : (genFailed s).host = s.host := rfl
@[simp] theorem genFailed_sched (s : State) : (genFailed s).sched = s.sched := rfl
@[simp] theorem genFailed_free (s : State) : (genFailed s).free = s.free := rfl

@[simp] theorem advance_params (s : State) : (s.advance).params = s.params := rfl
@[simp] theorem advance_regs (s : State) : (s.advance).regs = s.regs := rfl
@[simp] theorem advance_phase (s : State) : (s.advance).phase = s.phase := rfl
@[simp] theorem advance_src (s : State) : (s.advance).src = s.src := rfl
@[simp] theorem advance_bm (s : State) : (s.advance).bm = s.bm := rfl
@[simp] theorem advance_out (s : State) : (s.advance).out = s.out := rfl
@[simp] theorem advance_port (s : State) : (s.advance).port = s.port := rfl
@[simp] theorem advance_raced (s : State) : (s.advance).raced = s.raced := rfl
@[simp] theorem advance_host (s : State) : (s.advance).host = { s.host with pc := s.host.pc + 1 } := rfl
@[simp] theorem advance_sched (s : State) : (s.advance).sched = s.sched := rfl
@[simp] theorem advance_free (s : State) : (s.advance).free = s.free := rfl

@[simp] theorem bind_params (name : Nat) (v : Word) (s : State) : (s.bind name v).params = s.params := rfl
@[simp] theorem bind_regs (name : Nat) (v : Word) (s : State) : (s.bind name v).regs = s.regs := rfl
@[simp] theorem bind_phase (name : Nat) (v : Word) (s : State) : (s.bind name v).phase = s.phase := rfl
@[simp] theorem bind_src (name : Nat) (v : Word) (s : State) : (s.bind name v).src = s.src := rfl
@[simp] theorem bind_bm (name : Nat) (v : Word) (s : State) : (s.bind name v).bm = s.bm := rfl
@[simp] theorem bind_out (name : Nat) (v : Word) (s : State) : (s.bind name v).out = s.out := rfl
@[simp] theorem bind_port (name : Nat) (v : Word) (s : State) : (s.bind name v).port = s.port := rfl
@[simp] theorem bind_raced (name : Nat) (v : Word) (s : State) : (s.bind name v).raced = s.raced := rfl
@[simp] theorem bind_host (name : Nat) (v : Word) (s : State) : (s.bind name v).host = { s.host with names := putRun s.host.names name [v] } := rfl
@[simp] theorem bind_sched (name : Nat) (v : Word) (s : State) : (s.bind name v).sched = s.sched := rfl
@[simp] theorem bind_free (name : Nat) (v : Word) (s : State) : (s.bind name v).free = s.free := rfl

@[simp] theorem jump_params (k : Nat) (s : State) : (s.jump k).params = s.params := rfl
@[simp] theorem jump_regs (k : Nat) (s : State) : (s.jump k).regs = s.regs := rfl
@[simp] theorem jump_phase (k : Nat) (s : State) : (s.jump k).phase = s.phase := rfl
@[simp] theorem jump_src (k : Nat) (s : State) : (s.jump k).src = s.src := rfl
@[simp] theorem jump_bm (k : Nat) (s : State) : (s.jump k).bm = s.bm := rfl
@[simp] theorem jump_out (k : Nat) (s : State) : (s.jump k).out = s.out := rfl
@[simp] theorem jump_port (k : Nat) (s : State) : (s.jump k).port = s.port := rfl
@[simp] theorem jump_raced (k : Nat) (s : State) : (s.jump k).raced = s.raced := rfl
@[simp] theorem jump_host (k : Nat) (s : State) : (s.jump k).host = { s.host with pc := k } := rfl
@[simp] theorem jump_sched (k : Nat) (s : State) : (s.jump k).sched = s.sched := rfl
@[simp] theorem jump_free (k : Nat) (s : State) : (s.jump k).free = s.free := rfl

@[simp] theorem drawn_params (s : State) (n : Nat) : (s.drawn n).params = s.params := rfl
@[simp] theorem drawn_regs (s : State) (n : Nat) : (s.drawn n).regs = s.regs := rfl
@[simp] theorem drawn_phase (s : State) (n : Nat) : (s.drawn n).phase = s.phase := rfl
@[simp] theorem drawn_src (s : State) (n : Nat) : (s.drawn n).src = s.src := rfl
@[simp] theorem drawn_bm (s : State) (n : Nat) : (s.drawn n).bm = s.bm := rfl
@[simp] theorem drawn_out (s : State) (n : Nat) : (s.drawn n).out = s.out := rfl
@[simp] theorem drawn_port (s : State) (n : Nat) : (s.drawn n).port = s.port := rfl
@[simp] theorem drawn_raced (s : State) (n : Nat) : (s.drawn n).raced = s.raced := rfl
@[simp] theorem drawn_host (s : State) (n : Nat) : (s.drawn n).host = s.host := rfl
@[simp] theorem drawn_sched (s : State) (n : Nat) : (s.drawn n).sched = s.sched := rfl
@[simp] theorem drawn_free (s : State) (n : Nat) : (s.drawn n).free = s.free + n := rfl

@[simp] theorem writeRun_epoch (m : Memory) (base : Nat) (bs : List Byte) : (m.writeRun base bs).epoch = m.epoch := rfl
@[simp] theorem writeRun_cells (m : Memory) (base : Nat) (bs : List Byte) :
    (m.writeRun base bs).cells = putRun m.cells base bs := rfl
@[simp] theorem unspecified_epoch (m : Memory) : m.unspecified.epoch = m.epoch + 1 := rfl
@[simp] theorem unspecified_cells (m : Memory) : m.unspecified.cells = [] := rfl

/-- `BUSY` is the phase (R41, R54). -/
theorem busy_iff (s : State) : s.busy = true ↔ ∃ sn, s.phase = .busy sn := by
  unfold State.busy; cases s.phase <;> simp

theorem busy_of_phase {s : State} {sn : Snapshot} (h : s.phase = .busy sn) : s.busy = true := by
  simp [State.busy, h]

theorem idle_of_phase {s : State} (h : s.phase = .idle) : s.busy = false := by
  simp [State.busy, h]

/-- A command body runs on the snapshot it was accepted with. -/
@[simp] theorem withSnapshot_busy {s : State} {sn : Snapshot} (h : s.phase = .busy sn)
    (body : Snapshot → Host.Outcome State Fault Refusal) : withSnapshot s body = body sn := by
  simp [withSnapshot, h]

theorem withSnapshot_idle {s : State} (h : s.phase = .idle)
    (body : Snapshot → Host.Outcome State Fault Refusal) : withSnapshot s body = .refused .noCommand := by
  simp [withSnapshot, h]

end Sys2Proof.Machine
end

