-- ==== Sys2Proof/Laws/Memory.lean ====
section
/-! SUPPORT. What the table and memory operations do, once each: a read after a write, the canonical form, the bounds. -/
namespace Sys2Proof.Machine

variable {α : Type}

/-! ### Tables -/

theorem lookup_append (l l' : List (Nat × α)) (a : Nat) :
    lookup (l ++ l') a = (lookup l a).or (lookup l' a) := by
  induction l with
  | nil => simp [lookup]
  | cons e l ih => by_cases h : a = e.1 <;> simp [lookup, h, ih]

theorem lookup_filter (p : Nat → Bool) (l : List (Nat × α)) (a : Nat) :
    lookup (l.filter fun e => p e.1) a = if p a then lookup l a else none := by
  induction l with
  | nil => simp [lookup]
  | cons e l ih =>
    rcases e with ⟨k, v⟩
    by_cases hk : p k
    · by_cases ha : a = k
      · subst ha; simp [lookup, hk]
      · simp [lookup, hk, ha, ih]
    · by_cases ha : a = k
      · subst ha; simp [hk, ih]
      · simp [lookup, hk, ha, ih]

theorem lookup_numbered (vs : List α) : ∀ base a : Nat,
    lookup (numbered base vs) a = if base ≤ a then vs[a - base]? else none := by
  induction vs with
  | nil => intro base a; simp [numbered, lookup]
  | cons v vs ih =>
    intro base a
    by_cases h : a = base
    · subst h; simp [numbered, lookup]
    · simp only [numbered, lookup, h, if_false, ih]
      by_cases hb : base ≤ a
      · have : a - base = (a - (base + 1)) + 1 := by omega
        rw [if_pos (by omega), if_pos hb, this, List.getElem?_cons_succ]
      · rw [if_neg (by omega), if_neg hb]

/-- A table entry after a run has been written. -/
theorem lookup_putRun (l : List (Nat × α)) (base : Nat) (vs : List α) (a : Nat) :
    lookup (putRun l base vs) a =
      if base ≤ a ∧ a < base + vs.length then vs[a - base]? else lookup l a := by
  unfold putRun
  rw [lookup_append, lookup_append, lookup_filter (fun k => decide (k < base)),
    lookup_filter (fun k => decide (base + vs.length ≤ k)), lookup_numbered]
  simp only [decide_eq_true_eq]
  by_cases h1 : a < base
  · simp [h1, show ¬ base ≤ a by omega, show ¬ base + vs.length ≤ a by omega]
  · by_cases h2 : a < base + vs.length
    · simp [h1, h2, show base ≤ a by omega, show ¬ base + vs.length ≤ a by omega]
    · simp [h1, h2, show base ≤ a by omega, show base + vs.length ≤ a by omega,
        show vs.length ≤ a - base by omega]

theorem mem_numbered {vs : List α} : ∀ {base : Nat} {e : Nat × α},
    e ∈ numbered base vs → base ≤ e.1 ∧ e.1 < base + vs.length := by
  induction vs with
  | nil => simp [numbered]
  | cons v vs ih =>
    intro base e h
    simp only [numbered, List.mem_cons] at h
    rcases h with rfl | h
    · simp
    · have := ih h; simp only [List.length_cons]; omega

theorem rising_numbered (vs : List α) : ∀ base : Nat, Rising (numbered base vs) := by
  induction vs with
  | nil => intro base; simp [numbered]
  | cons v vs ih =>
    intro base
    simp only [numbered, Rising, List.pairwise_cons]
    exact ⟨fun e he => by have := mem_numbered he; omega, ih _⟩

/-- Writing a run keeps the canonical form. -/
theorem rising_putRun {l : List (Nat × α)} (h : Rising l) (base : Nat) (vs : List α) :
    Rising (putRun l base vs) := by
  simp only [putRun, Rising, List.pairwise_append, List.mem_append, List.mem_filter, decide_eq_true_eq]
  refine ⟨⟨h.filter _, rising_numbered _ _, ?_⟩, h.filter _, ?_⟩
  · intro e he e' he'
    have := mem_numbered he'; omega
  · rintro e (he | he) e' he'
    · omega
    · have := mem_numbered he; omega

theorem mem_putRun {l : List (Nat × α)} {base : Nat} {vs : List α} {e : Nat × α} (h : e ∈ putRun l base vs) :
    e ∈ l ∨ (base ≤ e.1 ∧ e.1 < base + vs.length) := by
  simp only [putRun, List.mem_append, List.mem_filter] at h
  rcases h with (h | h) | h
  · exact .inl h.1
  · exact .inr (mem_numbered h)
  · exact .inl h.1

/-- A run written below a limit leaves a table below that limit below it. -/
theorem putRun_below {l : List (Nat × α)} {base limit : Nat} {vs : List α} (h : ∀ e ∈ l, e.1 < limit)
    (hb : base + vs.length ≤ limit) : ∀ e ∈ putRun l base vs, e.1 < limit := by
  intro e he
  rcases mem_putRun he with he | he
  · exact h e he
  · omega

@[simp] theorem putRun_nil_run (l : List (Nat × α)) : putRun l 0 [] = l := by
  simp [putRun, numbered]

theorem numbered_append (xs ys : List α) : ∀ base : Nat,
    numbered base (xs ++ ys) = numbered base xs ++ numbered (base + xs.length) ys := by
  induction xs with
  | nil => intro base; simp [numbered]
  | cons x xs ih =>
    intro base
    simp only [List.cons_append, numbered, ih, List.length_cons]
    rw [show base + 1 + xs.length = base + (xs.length + 1) by omega]

/-- Two runs written one after the other are one run. -/
theorem putRun_putRun_append (l : List (Nat × α)) (base : Nat) (xs ys : List α) :
    putRun (putRun l base xs) (base + xs.length) ys = putRun l base (xs ++ ys) := by
  have low : (putRun l base xs).filter (fun e => decide (e.1 < base + xs.length)) =
      l.filter (fun e => decide (e.1 < base)) ++ numbered base xs := by
    rw [putRun, List.filter_append, List.filter_append, List.filter_filter, List.filter_filter,
      List.filter_eq_self.mpr (fun e he => by have := mem_numbered he; simp; omega : ∀ e ∈ numbered base xs, _),
      List.filter_eq_nil_iff.mpr (fun e _ => by simp :
        ∀ e ∈ l, ¬ (decide (e.1 < base + xs.length) && decide (base + xs.length ≤ e.1)) = true), List.append_nil]
    congr 1
    exact List.filter_congr fun e _ => by rw [Bool.eq_iff_iff]; simp; omega
  have high : (putRun l base xs).filter (fun e => decide (base + xs.length + ys.length ≤ e.1)) =
      l.filter (fun e => decide (base + (xs ++ ys).length ≤ e.1)) := by
    rw [putRun, List.filter_append, List.filter_append, List.filter_filter, List.filter_filter,
      List.filter_eq_nil_iff.mpr (fun e _ => by simp; omega :
        ∀ e ∈ l, ¬ (decide (base + xs.length + ys.length ≤ e.1) && decide (e.1 < base)) = true),
      List.filter_eq_nil_iff.mpr (fun e he => by have := mem_numbered he; simp; omega : ∀ e ∈ numbered base xs, _)]
    simp only [List.nil_append]
    exact List.filter_congr fun e _ => by rw [Bool.eq_iff_iff]; simp [List.length_append]; omega
  rw [putRun, low, high, putRun, numbered_append]
  simp only [List.append_assoc]

/-! ### Byte memory -/

theorem writeRun_wf {m : Memory} (h : m.wf) (base : Nat) (bs : List Byte) : (m.writeRun base bs).wf :=
  rising_putRun h base bs

theorem unspecified_wf (m : Memory) : m.unspecified.wf := List.Pairwise.nil

/-- The memories right after reset have the canonical form. -/
theorem reset_wf : State.reset.src.wf ∧ State.reset.bm.wf ∧ State.reset.out.wf := by decide

/-- A byte after a run has been written: the run's byte inside it, the old byte outside. -/
theorem read_writeRun (sp : Space) (m : Memory) (base : Nat) (bs : List Byte) (a : Nat) :
    (m.writeRun base bs).read sp a =
      if h : base ≤ a ∧ a < base + bs.length then bs[a - base] else m.read sp a := by
  simp only [Memory.read, writeRun_cells, writeRun_epoch, lookup_putRun]
  split
  · rename_i h
    rw [List.getElem?_eq_getElem (by omega)]; rfl
  · rfl

theorem read_writeRun_outside {sp : Space} {m : Memory} {base : Nat} {bs : List Byte} {a : Nat}
    (h : a < base ∨ base + bs.length ≤ a) : (m.writeRun base bs).read sp a = m.read sp a := by
  rw [read_writeRun, dif_neg (by omega)]

theorem read_writeRun_inside {sp : Space} {m : Memory} {base : Nat} {bs : List Byte} {k : Nat}
    (h : k < bs.length) : (m.writeRun base bs).read sp (base + k) = bs[k] := by
  rw [read_writeRun, dif_pos (by omega)]; simp

theorem writeRun_writeRun_append (m : Memory) (base : Nat) (xs ys : List Byte) :
    (m.writeRun base xs).writeRun (base + xs.length) ys = m.writeRun base (xs ++ ys) := by
  simp only [Memory.writeRun, putRun_putRun_append]

@[simp] theorem writeRun_nil (m : Memory) : m.writeRun 0 [] = m := by simp [Memory.writeRun]

theorem listed_writeRun (m : Memory) (base : Nat) (bs : List Byte) (a : Nat) :
    (m.writeRun base bs).listed a = (decide (base ≤ a ∧ a < base + bs.length) || m.listed a) := by
  simp only [Memory.listed, writeRun_cells, lookup_putRun]
  split
  · rename_i h
    rw [List.getElem?_eq_getElem (by omega)]; simp [h]
  · rename_i h; simp [h]

@[simp] theorem length_readRun (sp : Space) (m : Memory) (base len : Nat) :
    (m.readRun sp base len).length = len := by simp [Memory.readRun]

theorem getElem_readRun {sp : Space} {m : Memory} {base len k : Nat} (h : k < (m.readRun sp base len).length) :
    (m.readRun sp base len)[k] = m.read sp (base + k) := by simp [Memory.readRun]

/-- A run of reads is a list exactly when each read is its byte. -/
theorem readRun_eq_iff {sp : Space} {m : Memory} {base len : Nat} {bs : List Byte} (hl : bs.length = len) :
    m.readRun sp base len = bs ↔ ∀ (k : Nat) (h : k < bs.length), m.read sp (base + k) = bs[k] := by
  constructor
  · rintro rfl k h; rw [getElem_readRun]
  · intro h
    apply List.ext_getElem (by simp [hl])
    intro k h1 h2; rw [getElem_readRun, h k h2]

/-- Appending a run at the end of what has been read. -/
theorem readRun_writeRun_append (sp : Space) (m : Memory) (base len : Nat) (bs : List Byte) :
    (m.writeRun (base + len) bs).readRun sp base (len + bs.length) = m.readRun sp base len ++ bs := by
  rw [readRun_eq_iff (by simp)]
  intro k hk
  by_cases h : k < len
  · rw [read_writeRun_outside (by omega), List.getElem_append_left (by simpa using h), getElem_readRun]
  · rw [read_writeRun, dif_pos (by simp at hk; omega), List.getElem_append_right (by simp; omega)]
    congr 1
    simp; omega

theorem readRun_append (sp : Space) (m : Memory) (base n k : Nat) :
    m.readRun sp base (n + k) = m.readRun sp base n ++ m.readRun sp (base + n) k := by
  rw [readRun_eq_iff (by simp)]
  intro j hj
  by_cases h : j < n
  · rw [List.getElem_append_left (by simpa using h), getElem_readRun]
  · rw [List.getElem_append_right (by simp; omega), getElem_readRun]
    congr 1
    simp; omega

/-- Two memories that read alike on a range give the same run. -/
theorem readRun_congr {sp : Space} {m m' : Memory} {base len : Nat}
    (h : ∀ a, base ≤ a → a < base + len → m.read sp a = m'.read sp a) :
    m.readRun sp base len = m'.readRun sp base len := by
  rw [readRun_eq_iff (by simp)]
  intro k hk
  rw [getElem_readRun]
  exact h _ (by omega) (by simp at hk; omega)

/-! ### Emit (R50) -/

/-- R50: when an append succeeds, and what it leaves. -/
theorem emit_ok_iff {cap : Nat} {o o' : OutBuf} {bs : List Byte} :
    emit cap o bs = .ok o' ↔
      o.len + bs.length ≤ cap ∧ o' = { mem := o.mem.writeRun o.len bs, len := o.len + bs.length } := by
  unfold emit
  split
  · rename_i h
    simp; omega
  · rename_i h
    simp only [Except.ok.injEq]
    constructor
    · rintro rfl; exact ⟨by omega, rfl⟩
    · rintro ⟨_, rfl⟩; rfl

theorem emit_ok {cap : Nat} {o : OutBuf} {bs : List Byte} (h : o.len + bs.length ≤ cap) :
    emit cap o bs = .ok { mem := o.mem.writeRun o.len bs, len := o.len + bs.length } :=
  emit_ok_iff.mpr ⟨h, rfl⟩

/-- R50: the only error of an append. -/
theorem emit_error_iff {cap : Nat} {o : OutBuf} {bs : List Byte} {d : ErrDetail} :
    emit cap o bs = .error d ↔ cap < o.len + bs.length ∧ d = .outCapacity := by
  unfold emit
  split
  · rename_i h; simp [h, eq_comm]
  · rename_i h; simp [h]

end Sys2Proof.Machine
end

