-- ==== Sys2Proof/Laws/Transform.lean ====
section
/-! SUPPORT. What the transform step does, once: its three errors, its success, the bitmap's length, what a sample read
answers, and which tap fails. -/
namespace Sys2Proof.Machine

@[simp] theorem length_packRow (bits : Nat → Bool) : (packRow bits).length = 48 := by
  simp [packRow, Config.widthBytes]

theorem length_flatMap_const {β γ : Type} (l : List β) (f : β → List γ) (n : Nat) (h : ∀ x ∈ l, (f x).length = n) :
    (l.flatMap f).length = n * l.length := by
  induction l with
  | nil => simp
  | cons x l ih =>
    simp only [List.flatMap_cons, List.length_append, List.length_cons, h x (by simp),
      ih fun y hy => h y (by simp [hy])]
    ring

/-- R196, R200: the bitmap has exactly 48 bytes for each of its `T` rows. -/
@[simp] theorem length_bitmap (K : Kernel) (W H T : Nat) (S : Nat → Byte) : (bitmap K W H T S).length = 48 * T := by
  simp only [bitmap]
  rw [length_flatMap_const _ _ 48 (by simp)]
  simp

/-- The taps are those of the target pixels (R190). -/
theorem mem_allTaps {K : Kernel} {W H T i : Nat} :
    i ∈ allTaps K W H T ↔ ∃ x y, x < 384 ∧ y < T ∧ i ∈ K.taps W H T x y := by
  simp only [allTaps, List.mem_flatMap, List.mem_range, Config.widthDots]
  constructor
  · rintro ⟨y, hy, x, hx, h⟩; exact ⟨x, y, hx, hy, h⟩
  · rintro ⟨x, y, hx, hy, h⟩; exact ⟨y, hy, x, hx, h⟩

/-- R83: at SRC_CAP and above. -/
theorem srcRead_past {s : State} {i : Nat} (h : s.params.srcCap ≤ i) : srcRead s i = .unreadable := if_pos h

/-- R97. -/
theorem srcRead_raced {s : State} {i draw : Nat} (h : i < s.params.srcCap) (hr : lookup s.raced i = some draw) :
    srcRead s i = .ok (Config.raceByte draw) := by
  unfold srcRead; rw [if_neg (by omega), hr]

/-- R83: an index the port answers itself. -/
theorem srcRead_port {s : State} {i : Nat} {a : SrcAnswer} (h : i < s.params.srcCap) (hr : lookup s.raced i = none)
    (hp : lookup s.port i = some a) : srcRead s i = a := by
  unfold srcRead; rw [if_neg (by omega), hr, hp]

/-- R83: plain memory. -/
theorem srcRead_memory {s : State} {i : Nat} (h : i < s.params.srcCap) (hr : lookup s.raced i = none)
    (hp : lookup s.port i = none) : srcRead s i = .ok (s.src.read .src i) := by
  unfold srcRead; rw [if_neg (by omega), hr, hp]

theorem srcReadError_none_iff {s : State} {i : Nat} : srcReadError s i = none ↔ ∃ b, srcRead s i = .ok b := by
  unfold srcReadError
  cases srcRead s i <;> simp

theorem srcReadError_detail {s : State} {i : Nat} {d : ErrDetail} (h : srcReadError s i = some d) :
    d = .srcUnreadable ∨ d = .srcDecode := by
  unfold srcReadError at h
  cases hr : srcRead s i <;> simp_all

theorem sample_of_ok {s : State} {i : Nat} {b : Byte} (h : srcRead s i = .ok b) : sample s i = b := by
  simp [sample, h]

/-- No tap fails exactly when every tap read answers `Ok`. -/
theorem sourceError_none_iff {K : Kernel} {s : State} {W H T : Nat} :
    sourceError K s W H T = none ↔ ∀ i ∈ allTaps K W H T, srcReadError s i = none := by
  unfold sourceError lowestFailingTap
  constructor
  · intro h i hi
    by_contra hne
    cases hm : ((allTaps K W H T).filter fun i => (srcReadError s i).isSome).min? with
    | none =>
      rw [List.min?_eq_none_iff, List.filter_eq_nil_iff] at hm
      exact hm i hi (Option.isSome_iff_ne_none.mpr hne)
    | some j =>
      rw [hm] at h
      have hj := List.min?_mem hm
      rw [List.mem_filter] at hj
      simp [h] at hj
  · intro h
    have : ((allTaps K W H T).filter fun i => (srcReadError s i).isSome) = [] := by
      rw [List.filter_eq_nil_iff]
      intro i hi; simp [h i hi]
    simp [this]

/-- R193: the failing tap with the lowest index decides. -/
theorem sourceError_of_lowest {K : Kernel} {s : State} {W H T i : Nat} {d : ErrDetail}
    (hi : i ∈ allTaps K W H T) (hd : srcReadError s i = some d)
    (hlow : ∀ j ∈ allTaps K W H T, j < i → srcReadError s j = none) : sourceError K s W H T = some d := by
  unfold sourceError lowestFailingTap
  have hmem : i ∈ (allTaps K W H T).filter fun i => (srcReadError s i).isSome := by
    simp [List.mem_filter, hi, hd]
  have : ((allTaps K W H T).filter fun i => (srcReadError s i).isSome).min? = some i := by
    rw [List.min?_eq_some_iff]
    refine ⟨hmem, fun j hj => ?_⟩
    rw [List.mem_filter] at hj
    by_contra hlt
    have := hlow j hj.1 (by omega)
    simp [this] at hj
  simp [this, hd]

/-- R193: an error of the source reads is the error of a tap below which no tap fails. -/
theorem sourceError_some {K : Kernel} {s : State} {W H T : Nat} {d : ErrDetail} (h : sourceError K s W H T = some d) :
    ∃ i ∈ allTaps K W H T, srcReadError s i = some d ∧
      ∀ j ∈ allTaps K W H T, j < i → srcReadError s j = none := by
  unfold sourceError lowestFailingTap at h
  split at h
  · cases h
  · rename_i i hm
    rw [List.min?_eq_some_iff] at hm
    obtain ⟨hmem, hlow⟩ := hm
    rw [List.mem_filter] at hmem
    refine ⟨i, hmem.1, h, fun j hj hlt => ?_⟩
    by_contra hne
    have := hlow j (by rw [List.mem_filter]; exact ⟨hj, Option.isSome_iff_ne_none.mpr hne⟩)
    omega

/-- Everything a transform step can do. -/
theorem transform_cases (K : Kernel) (s : State) (W H : Nat) :
    ((W = 0 ∨ H = 0) ∧ transform K s W H = .error .zeroDim) ∨
    (0 < W ∧ 0 < H ∧ s.params.bmMaxLines < targetHeight W H ∧ transform K s W H = .error .bmCapacity) ∨
    (0 < W ∧ 0 < H ∧ targetHeight W H ≤ s.params.bmMaxLines ∧
      ∃ d, sourceError K s W H (targetHeight W H) = some d ∧ transform K s W H = .error d) ∨
    (0 < W ∧ 0 < H ∧ targetHeight W H ≤ s.params.bmMaxLines ∧ sourceError K s W H (targetHeight W H) = none ∧
      transform K s W H = .ok (targetHeight W H, bitmap K W H (targetHeight W H) (sample s))) := by
  unfold transform
  by_cases h0 : W = 0 ∨ H = 0
  · exact .inl ⟨h0, if_pos h0⟩
  · rw [if_neg h0]
    have hW : 0 < W := by omega
    have hH : 0 < H := by omega
    by_cases h1 : s.params.bmMaxLines < targetHeight W H
    · exact .inr (.inl ⟨hW, hH, h1, if_pos h1⟩)
    · rw [if_neg h1]
      cases h2 : sourceError K s W H (targetHeight W H) with
      | some d => exact .inr (.inr (.inl ⟨hW, hH, by omega, d, rfl, rfl⟩))
      | none => exact .inr (.inr (.inr ⟨hW, hH, by omega, rfl, rfl⟩))

/-- A ready source is transformed. -/
theorem transform_of_ready {s : State} {W H : Nat} (h : SourceReady s W H) :
    transform resample s W H = .ok (targetHeight W H, bitmap resample W H (targetHeight W H) (sample s)) := by
  have hnone : sourceError resample s W H (targetHeight W H) = none := by
    rw [sourceError_none_iff]
    intro i hi
    obtain ⟨x, y, hx, hy, hm⟩ := mem_allTaps.mp hi
    exact srcReadError_none_iff.mpr (h.readable x y i hx hy hm)
  have := h.width_pos; have := h.height_pos; have := h.fits
  unfold transform
  rw [if_neg (by omega), if_neg (by omega), hnone]

/-- A transform that succeeds had a ready source. -/
theorem ready_of_transform {s : State} {W H T : Nat} {bytes : List Byte} (h : transform resample s W H = .ok (T, bytes)) :
    SourceReady s W H ∧ T = targetHeight W H ∧ bytes = bitmap resample W H T (sample s) := by
  rcases transform_cases resample s W H with ⟨_, e⟩ | ⟨_, _, _, e⟩ | ⟨_, _, _, d, _, e⟩ | ⟨hW, hH, hf, hn, e⟩
  · rw [e] at h; cases h
  · rw [e] at h; cases h
  · rw [e] at h; cases h
  · rw [e] at h
    obtain ⟨rfl, rfl⟩ : targetHeight W H = T ∧ bitmap resample W H (targetHeight W H) (sample s) = bytes := by
      simpa using h
    refine ⟨⟨hW, hH, hf, fun x y i hx hy hi => ?_⟩, rfl, rfl⟩
    exact srcReadError_none_iff.mp (sourceError_none_iff.mp hn i (mem_allTaps.mpr ⟨x, y, hx, hy, hi⟩))

/-- R185: a u16 source is at most 25165440 lines tall. -/
theorem targetHeight_le {W H : Nat} (hH : H < 65536) : targetHeight W H ≤ 25165440 := by
  unfold targetHeight Config.widthDots
  calc H * 384 / W ≤ H * 384 := Nat.div_le_self _ _
    _ ≤ 65535 * 384 := Nat.mul_le_mul_right _ (by omega)

end Sys2Proof.Machine
end

