-- ==== Sys2Proof/Laws/Bitmap.lean ====
section
/-! SUPPORT. The kernel's taps and weights, the print bit, the packed byte, and the bits of a bitmap. -/
namespace Sys2Proof.Machine

/-! ### One axis of the kernel (R189) -/

theorem axisTap_lo_le {n unit pos : Nat} (hu : 0 < unit) : (axisTap n unit pos).lo ≤ n - 1 := by
  simp only [axisTap]
  calc _ ≤ unit * (n - 1) / unit := Nat.div_le_div_right (Nat.min_le_right _ _)
    _ = n - 1 := Nat.mul_div_cancel_left _ hu

theorem axisTap_hi_le {n unit pos : Nat} : (axisTap n unit pos).hi ≤ n - 1 := by
  simp only [axisTap]; omega

theorem axisTap_weight_lt {n unit pos : Nat} (hu : 0 < unit) : (axisTap n unit pos).weight < unit := by
  simp only [axisTap]; exact Nat.mod_lt _ hu

/-- R82: the index of a sample inside the source is inside the source. -/
theorem sampleIndex_lt {W H u v : Nat} (hu : u ≤ W - 1) (hv : v ≤ H - 1) (hW : 0 < W) (hH : 0 < H) : v * W + u < W * H := by
  calc v * W + u ≤ (H - 1) * W + (W - 1) := Nat.add_le_add (Nat.mul_le_mul_right _ hv) hu
    _ < W * H := by
      obtain ⟨w, rfl⟩ := Nat.exists_eq_add_of_lt hW
      obtain ⟨h, rfl⟩ := Nat.exists_eq_add_of_lt hH
      simp
      nlinarith

/-- The weights of the four taps sum to the whole. -/
theorem blend_constant (A B ra rb c : Nat) (ha : ra ≤ A) (hb : rb ≤ B) :
    (B - rb) * ((A - ra) * c + ra * c) + rb * ((A - ra) * c + ra * c) = B * A * c := by
  obtain ⟨a, rfl⟩ := Nat.exists_eq_add_of_le ha
  obtain ⟨b, rfl⟩ := Nat.exists_eq_add_of_le hb
  simp
  ring

/-- An exact value is not changed by the rounding of R189. -/
theorem round_exact (D c : Nat) (hD : 0 < D) : (2 * (D * c) + D) / (2 * D) = c := by
  rw [show 2 * (D * c) + D = D + (2 * D) * c by ring, Nat.add_mul_div_left _ _ (by omega), Nat.div_eq_of_lt (by omega)]
  simp

/-! ### Threshold and packing (R195, R196) -/

/-- R195: the two forms of the threshold test. -/
theorem printBit_iff (g : Byte) : printBit g = decide (g.toNat ≤ 127) := by
  have := g.isLt
  simp only [printBit]
  rw [Bool.eq_iff_iff]
  simp
  omega

theorem packed_bits : ∀ b0 b1 b2 b3 b4 b5 b6 b7 : Bool,
    let v := BitVec.ofNat 8 (b0.toNat * 128 + (b1.toNat * 64 + (b2.toNat * 32 + (b3.toNat * 16 +
      (b4.toNat * 8 + (b5.toNat * 4 + (b6.toNat * 2 + b7.toNat)))))))
    v.getLsbD 7 = b0 ∧ v.getLsbD 6 = b1 ∧ v.getLsbD 5 = b2 ∧ v.getLsbD 4 = b3 ∧ v.getLsbD 3 = b4 ∧
      v.getLsbD 2 = b5 ∧ v.getLsbD 1 = b6 ∧ v.getLsbD 0 = b7 := by decide

/-- R89: pixel `k` of a byte is its bit `7 - k`. -/
theorem packByte_bit (bits : Nat → Bool) (k : Nat) (hk : k < 8) : (packByte bits).getLsbD (7 - k) = bits k := by
  have : packByte bits = BitVec.ofNat 8 ((bits 0).toNat * 128 + ((bits 1).toNat * 64 + ((bits 2).toNat * 32 +
      ((bits 3).toNat * 16 + ((bits 4).toNat * 8 + ((bits 5).toNat * 4 + ((bits 6).toNat * 2 + (bits 7).toNat))))))) := by
    simp only [packByte, List.range_succ, List.range_zero, List.nil_append, List.map_append, List.map_cons, List.map_nil,
      List.sum_append, List.sum_cons, List.sum_nil]
    congr 1
    omega
  rw [this]
  obtain ⟨h0, h1, h2, h3, h4, h5, h6, h7⟩ :=
    packed_bits (bits 0) (bits 1) (bits 2) (bits 3) (bits 4) (bits 5) (bits 6) (bits 7)
  obtain rfl | rfl | rfl | rfl | rfl | rfl | rfl | rfl :
      k = 0 ∨ k = 1 ∨ k = 2 ∨ k = 3 ∨ k = 4 ∨ k = 5 ∨ k = 6 ∨ k = 7 := by omega
  · exact h0
  · exact h1
  · exact h2
  · exact h3
  · exact h4
  · exact h5
  · exact h6
  · exact h7

theorem getElem_flatMap_rows {f : Nat → List Byte} (hf : ∀ y, (f y).length = 48) (T : Nat) :
    ∀ y j, y < T → j < 48 → ((List.range T).flatMap f)[48 * y + j]? = (f y)[j]? := by
  induction T with
  | zero => intro y j h; omega
  | succ T ih =>
    intro y j hy hj
    rw [List.range_succ, List.flatMap_append]
    have hl : ((List.range T).flatMap f).length = 48 * T := by
      rw [length_flatMap_const _ _ 48 (fun x _ => hf x)]; simp
    by_cases h : y < T
    · rw [List.getElem?_append_left (by omega)]; exact ih y j h hj
    · obtain rfl : y = T := by omega
      rw [List.getElem?_append_right (by omega), hl]
      simp

/-- R196: byte `j` of row `y` of a bitmap. -/
theorem bitmap_byte (K : Kernel) (W H T : Nat) (S : Nat → Byte) {y j : Nat} (hy : y < T) (hj : j < 48) :
    (bitmap K W H T S)[48 * y + j]? = some (packByte fun k => printBit (K.value W H T S (8 * j + k) y)) := by
  simp only [bitmap]
  rw [getElem_flatMap_rows (by simp) T y j hy hj]
  simp [packRow, Config.widthBytes, List.getElem?_map, List.getElem?_range hj]

/-- R195, R196: pixel `(x, y)` of a bitmap. -/
theorem bitmap_bit (K : Kernel) (W H T : Nat) (S : Nat → Byte) {x y : Nat} (hx : x < 384) (hy : y < T) :
    ∃ b, (bitmap K W H T S)[48 * y + x / 8]? = some b ∧
      b.getLsbD (7 - x % 8) = decide ((K.value W H T S x y).toNat ≤ 127) := by
  refine ⟨_, bitmap_byte K W H T S hy (by omega), ?_⟩
  rw [packByte_bit _ _ (Nat.mod_lt _ (by omega)), printBit_iff, Nat.div_add_mod]

end Sys2Proof.Machine
end

