-- ==== Sys2Proof/Laws/Stream.lean ====
section
/-! SUPPORT. What the stream assembler emits, once: the loop of R232 and the whole of `assemble`, as one appended run of
bytes, or OUT_CAPACITY, or FEED_RANGE. -/
namespace Sys2Proof.Machine

/-- The rows of a bitmap memory. -/
abbrev rowsOf (bm : Memory) (r : Nat) : List Byte := bm.readRun .bm (48 * r) 48

theorem length_flatMap_rows (bm : Memory) (cur k : Nat) :
    ((List.range k).flatMap fun j => rowsOf bm (cur + j)).length = 48 * k := by
  rw [length_flatMap_const _ _ 48 (by simp)]; simp

/-- R233: the rows of a block, end to end, are the bytes GEN reads from BM. -/
theorem flatMap_rows (bm : Memory) (cur k : Nat) :
    ((List.range k).flatMap fun j => rowsOf bm (cur + j)) = bm.readRun .bm (48 * cur) (48 * k) := by
  induction k with
  | zero => simp [Memory.readRun]
  | succ k ih =>
    rw [List.range_succ, List.flatMap_append, ih, show 48 * (k + 1) = 48 * k + 48 by ring, readRun_append]
    simp [rowsOf, Nat.mul_add]

theorem blockCount_step {T cur : Nat} (h : cur < T) :
    blockCount (T - cur) = blockCount (T - (cur + min (T - cur) 255)) + 1 := by
  unfold blockCount; omega

/-- R121, R233: a block's header and data. -/
theorem raster_bytes (bm : Memory) (cur k : Nat) :
    (Segment.raster 0#8 48 k ((List.range k).flatMap fun j => rowsOf bm (cur + j))).bytes =
      blockHeader k ++ bm.readRun .bm (48 * cur) (48 * k) := by
  rw [flatMap_rows]; rfl

@[simp] theorem length_rasterHeader (mode : Byte) (wb lines : Half) : (rasterHeader mode wb lines).length = 8 := rfl

@[simp] theorem length_blockHeader (k : Nat) : (blockHeader k).length = 8 := rfl

/-- R237: the bytes of the blocks from line `cur` on. -/
theorem length_rasterSegments (bm : Memory) (T : Nat) : ∀ fuel cur : Nat, T - cur ≤ fuel →
    ((rasterSegments (rowsOf bm) T fuel cur).flatMap Segment.bytes).length =
      8 * blockCount (T - cur) + 48 * (T - cur) := by
  intro fuel
  induction fuel with
  | zero => intro cur h; simp [rasterSegments, show T - cur = 0 by omega, blockCount]
  | succ fuel ih =>
    intro cur h
    unfold rasterSegments
    by_cases hc : cur < T
    · simp only [if_pos hc, Config.maxLinesPerBlock, Config.widthBytes, List.flatMap_cons, List.length_append]
      rw [raster_bytes, ih _ (by omega), blockCount_step hc]
      simp only [List.length_append, length_blockHeader, length_readRun]
      omega
    · simp [hc, show T - cur = 0 by omega, blockCount]

/-- The stream buffer that holds `xs` from address 0 on, over the OUT contents `m`. -/
def appended (m : Memory) (xs : List Byte) : OutBuf := { mem := m.writeRun 0 xs, len := xs.length }

theorem appended_nil (m : Memory) : { mem := m, len := 0 } = appended m [] := by simp [appended]

theorem emit_appended (cap : Nat) (m : Memory) (xs ys : List Byte) :
    emit cap (appended m xs) ys =
      if cap < xs.length + ys.length then .error .outCapacity else .ok (appended m (xs ++ ys)) := by
  have := writeRun_writeRun_append m 0 xs ys
  simp only [Nat.zero_add] at this
  simp only [emit, appended, this, List.length_append]

/-- R232: the loop appends the blocks of the lines from `cur` on when they fit. -/
theorem emitBlocks_ok (cap : Nat) (bm m : Memory) (T : Nat) : ∀ (fuel cur blocks : Nat) (xs : List Byte), T - cur ≤ fuel →
    xs.length + (8 * blockCount (T - cur) + 48 * (T - cur)) ≤ cap →
    emitBlocks cap bm T fuel cur blocks (appended m xs) =
      .ok (appended m (xs ++ (rasterSegments (rowsOf bm) T fuel cur).flatMap Segment.bytes),
        blocks + blockCount (T - cur)) := by
  intro fuel
  induction fuel with
  | zero =>
    intro cur blocks xs h _
    simp [emitBlocks, rasterSegments, show T - cur = 0 by omega, blockCount]
  | succ fuel ih =>
    intro cur blocks xs h hfit
    unfold emitBlocks rasterSegments
    by_cases hc : cur < T
    · have step := blockCount_step hc
      simp only [if_pos hc, Config.maxLinesPerBlock, Config.widthBytes, List.flatMap_cons, raster_bytes]
      rw [emit_appended, if_neg (by simp only [length_blockHeader]; omega)]
      simp only
      rw [emit_appended, if_neg (by simp only [List.length_append, length_blockHeader, length_readRun]; omega)]
      simp only
      rw [ih _ _ _ (by omega) (by simp only [List.length_append, length_blockHeader, length_readRun]; omega), step]
      simp only [List.append_assoc, Nat.add_assoc, Nat.add_comm 1]
    · simp [hc, show T - cur = 0 by omega, blockCount]

/-- R232, R50: the loop fails with OUT_CAPACITY when they do not. -/
theorem emitBlocks_full (cap : Nat) (bm m : Memory) (T : Nat) : ∀ (fuel cur blocks : Nat) (xs : List Byte), T - cur ≤ fuel →
    cur < T → cap < xs.length + (8 * blockCount (T - cur) + 48 * (T - cur)) →
    emitBlocks cap bm T fuel cur blocks (appended m xs) = .error .outCapacity := by
  intro fuel
  induction fuel with
  | zero => intro cur blocks xs h hc; omega
  | succ fuel ih =>
    intro cur blocks xs h hc hfull
    have step := blockCount_step hc
    unfold emitBlocks
    simp only [if_pos hc, Config.maxLinesPerBlock, Config.widthBytes]
    rw [emit_appended]
    by_cases h1 : cap < xs.length + (blockHeader (min (T - cur) 255)).length
    · rw [if_pos h1]
    · rw [if_neg h1]
      simp only
      rw [emit_appended]
      by_cases h2 : cap < (xs ++ blockHeader (min (T - cur) 255)).length +
          (bm.readRun .bm (48 * cur) (48 * min (T - cur) 255)).length
      · rw [if_pos h2]
      · rw [if_neg h2]
        simp only [List.length_append, length_blockHeader, length_readRun] at h1 h2
        by_cases hc' : cur + min (T - cur) 255 < T
        · exact ih _ _ _ (by omega) hc' (by
            simp only [List.length_append, length_blockHeader, length_readRun]; omega)
        · have h0 : blockCount (T - (cur + min (T - cur) 255)) = 0 := by
            rw [show T - (cur + min (T - cur) 255) = 0 by omega]; rfl
          omega

/-- R124: the bytes of a GEN stream. -/
def genStream (bm : Memory) (T : Nat) (n : Byte) : List Byte :=
  (genSegments (rowsOf bm) T n).flatMap Segment.bytes

/-- The bytes of the blocks. -/
def blockBytes (bm : Memory) (T : Nat) : List Byte := (rasterSegments (rowsOf bm) T T 0).flatMap Segment.bytes

theorem length_blockBytes (bm : Memory) (T : Nat) : (blockBytes bm T).length = 8 * blockCount T + 48 * T := by
  unfold blockBytes; rw [length_rasterSegments _ _ _ _ (by omega)]; simp

theorem genStream_eq (bm : Memory) (T : Nat) (n : Byte) :
    genStream bm T n = (initFrame ++ justifyFrame 0x01#8) ++ blockBytes bm T ++ feedFrame n := by
  simp [genStream, genSegments, blockBytes, Segment.bytes]

/-- R237: the stream's length. -/
@[simp] theorem length_genStream (bm : Memory) (T : Nat) (n : Byte) : (genStream bm T n).length = streamLength T := by
  rw [genStream_eq]
  simp only [List.length_append, length_blockBytes, initFrame, justifyFrame, feedFrame, List.length_cons,
    List.length_nil, streamLength]
  omega

/-- R230, R300: what `assemble` answers, in the order of its checks. -/
theorem assemble_eq (cap : Nat) (bm m : Memory) (T : Nat) (fv : Int) :
    assemble cap bm T fv { mem := m, len := 0 } =
      if cap < 5 + 8 * blockCount T + 48 * T then .error .outCapacity
      else if ¬ feedInRange fv then .error .feedRange
      else if cap < streamLength T then .error .outCapacity
      else .ok (appended m (genStream bm T (feedByte fv)), blockCount T) := by
  unfold assemble
  rw [appended_nil, emit_appended]
  simp only [initFrame, justifyFrame, List.length_nil, List.length_cons, List.nil_append, Nat.zero_add]
  by_cases h2 : cap < 2
  · rw [if_pos h2, if_pos (by omega)]
  rw [if_neg h2]
  simp only
  rw [emit_appended]
  simp only [List.length_nil, List.length_cons, Nat.zero_add]
  by_cases h5 : cap < 2 + 3
  · rw [if_pos h5, if_pos (by omega)]
  rw [if_neg h5]
  simp only
  by_cases hb : cap < 5 + 8 * blockCount T + 48 * T
  · rw [if_pos hb]
    have hT : 0 < T := by
      by_contra h0
      simp [show T = 0 by omega, blockCount] at hb
      omega
    rw [emitBlocks_full _ _ _ _ _ _ _ _ (by omega) hT (by simp; omega)]
  · rw [if_neg hb, emitBlocks_ok _ _ _ _ _ _ _ _ (by omega) (by simp; omega)]
    simp only [Nat.sub_zero, Nat.zero_add]
    by_cases hf : feedInRange fv
    · rw [if_pos hf, if_neg (not_not.mpr hf), emit_appended]
      have hl := length_blockBytes bm T
      simp only [blockBytes] at hl
      simp only [List.length_append, hl, feedFrame, List.length_cons, List.length_nil]
      by_cases hs : cap < streamLength T
      · rw [if_pos (by unfold streamLength at hs; omega), if_pos hs]
      · rw [if_neg (by unfold streamLength at hs; omega), if_neg hs]
        simp [genStream_eq, blockBytes, initFrame, justifyFrame, feedFrame]
    · rw [if_neg hf, if_pos hf]

end Sys2Proof.Machine
end

