-- ==== Sys2Proof/Laws/Exec.lean ====
section
/-! SUPPORT. What each command does on a Busy engine, once; the provers cite these in place of unfolding a meaning. -/
namespace Sys2Proof.Machine

/-! ### The shared append (R50, R141, R142) -/

/-- The frame fits. -/
theorem appendFrame_fits {s : State} {sn : Snapshot} {f : List Byte} (h : s.regs.outLen + f.length ≤ s.params.outCap) :
    appendFrame f sn s = completeOk { s with
      out := s.out.writeRun s.regs.outLen f
      regs := { s.regs with outLen := s.regs.outLen + f.length } } := by
  unfold appendFrame
  rw [emit_ok (by simpa using h)]

/-- The frame does not fit. -/
theorem appendFrame_full {s : State} {sn : Snapshot} {f : List Byte} (h : s.params.outCap < s.regs.outLen + f.length) :
    appendFrame f sn s = completeError sn .outCapacity s := by
  unfold appendFrame
  rw [emit_error_iff.mpr ⟨by simpa using h, rfl⟩]

/-- Everything an append can do. -/
theorem appendFrame_cases (f : List Byte) (sn : Snapshot) (s : State) :
    (s.regs.outLen + f.length ≤ s.params.outCap ∧ appendFrame f sn s = completeOk { s with
      out := s.out.writeRun s.regs.outLen f
      regs := { s.regs with outLen := s.regs.outLen + f.length } }) ∨
    (s.params.outCap < s.regs.outLen + f.length ∧ appendFrame f sn s = completeError sn .outCapacity s) := by
  by_cases h : s.regs.outLen + f.length ≤ s.params.outCap
  · exact .inl ⟨h, appendFrame_fits h⟩
  · exact .inr ⟨by omega, appendFrame_full (by omega)⟩

/-! ### The commands -/

theorem exec_init {s : State} {sn : Snapshot} (h : s.phase = .busy sn) :
    exec .init s = .next (appendFrame initFrame sn s) := withSnapshot_busy h _

theorem exec_justify {s : State} {sn : Snapshot} (h : s.phase = .busy sn) (pos : Sel) :
    exec (.justify pos) s = if pos = 3#2 then .next (completeError sn .badJustify s)
      else .next (appendFrame (justifyFrame (zext8 pos)) sn s) := withSnapshot_busy h _

theorem exec_feed {s : State} {sn : Snapshot} (h : s.phase = .busy sn) :
    exec .feed s = if feedInRange sn.feedLines then .next (appendFrame (feedFrame (feedByte sn.feedLines)) sn s)
      else .next (completeError sn .feedRange s) := withSnapshot_busy h _

theorem exec_rhdr {s : State} {sn : Snapshot} (h : s.phase = .busy sn) (mode : Sel) :
    exec (.rhdr mode) s = .next (appendFrame (rasterHeader (zext8 mode) sn.wb sn.lines) sn s) := withSnapshot_busy h _

theorem exec_clear {s : State} {sn : Snapshot} (h : s.phase = .busy sn) :
    exec .clear s = .next (completeOk { s with regs := { s.regs with outLen := 0 } }) := withSnapshot_busy h _

theorem exec_xform_error {s : State} {sn : Snapshot} {d : ErrDetail} (h : s.phase = .busy sn)
    (ht : transform resample s sn.width sn.height = .error d) :
    exec .xform s = .next (completeError sn d (transformFailed s)) := by
  show execXform s = _
  unfold execXform
  rw [withSnapshot_busy h, ht]

theorem exec_xform_ok {s : State} {sn : Snapshot} {T : Nat} {bytes : List Byte} (h : s.phase = .busy sn)
    (ht : transform resample s sn.width sn.height = .ok (T, bytes)) :
    exec .xform s = .next (completeOk (transformDone T bytes s)) := by
  show execXform s = _
  unfold execXform
  rw [withSnapshot_busy h, ht]

theorem exec_gen_transform_error {s : State} {sn : Snapshot} {d : ErrDetail} (h : s.phase = .busy sn)
    (ht : transform resample s sn.width sn.height = .error d) :
    exec .gen s = .next (completeError sn d (genFailed (transformFailed s))) := by
  show execGen s = _
  unfold execGen
  rw [withSnapshot_busy h, ht]

theorem exec_gen_assemble_error {s : State} {sn : Snapshot} {T : Nat} {bytes : List Byte} {d : ErrDetail}
    (h : s.phase = .busy sn) (ht : transform resample s sn.width sn.height = .ok (T, bytes))
    (ha : assemble s.params.outCap (s.bm.writeRun 0 bytes) T sn.genFeed { mem := s.out, len := 0 } = .error d) :
    exec .gen s = .next (completeError sn d (genFailed (transformDone T bytes s))) := by
  show execGen s = _
  unfold execGen
  rw [withSnapshot_busy h, ht]
  simp only [transformDone_params, transformDone_bm, transformDone_out, ha]

theorem exec_gen_ok {s : State} {sn : Snapshot} {T blocks : Nat} {bytes : List Byte} {o : OutBuf}
    (h : s.phase = .busy sn) (ht : transform resample s sn.width sn.height = .ok (T, bytes))
    (ha : assemble s.params.outCap (s.bm.writeRun 0 bytes) T sn.genFeed { mem := s.out, len := 0 } = .ok (o, blocks)) :
    exec .gen s = .next (completeOk (genDone o blocks (transformDone T bytes s))) := by
  show execGen s = _
  unfold execGen
  rw [withSnapshot_busy h, ht]
  simp only [transformDone_params, transformDone_bm, transformDone_out, ha]

/-- Everything XFORM can do. -/
theorem exec_xform_cases {s : State} {sn : Snapshot} (h : s.phase = .busy sn) :
    (∃ d, transform resample s sn.width sn.height = .error d ∧
      exec .xform s = .next (completeError sn d (transformFailed s))) ∨
    (∃ T bytes, transform resample s sn.width sn.height = .ok (T, bytes) ∧
      exec .xform s = .next (completeOk (transformDone T bytes s))) := by
  cases ht : transform resample s sn.width sn.height with
  | error d => exact .inl ⟨d, rfl, exec_xform_error h ht⟩
  | ok r => exact .inr ⟨r.1, r.2, rfl, exec_xform_ok h ht⟩

/-- Everything GEN can do. -/
theorem exec_gen_cases {s : State} {sn : Snapshot} (h : s.phase = .busy sn) :
    (∃ d, transform resample s sn.width sn.height = .error d ∧
      exec .gen s = .next (completeError sn d (genFailed (transformFailed s)))) ∨
    (∃ T bytes d, transform resample s sn.width sn.height = .ok (T, bytes) ∧
      ((d = .outCapacity ∧ (s.params.outCap < 5 + 8 * blockCount T + 48 * T ∨
          feedInRange sn.genFeed ∧ s.params.outCap < streamLength T)) ∨
        (d = .feedRange ∧ 5 + 8 * blockCount T + 48 * T ≤ s.params.outCap ∧ ¬ feedInRange sn.genFeed)) ∧
      exec .gen s = .next (completeError sn d (genFailed (transformDone T bytes s)))) ∨
    (∃ T bytes, transform resample s sn.width sn.height = .ok (T, bytes) ∧ feedInRange sn.genFeed ∧
      streamLength T ≤ s.params.outCap ∧
      exec .gen s = .next (completeOk (genDone
        (appended s.out (genStream (s.bm.writeRun 0 bytes) T (feedByte sn.genFeed))) (blockCount T)
        (transformDone T bytes s)))) := by
  cases ht : transform resample s sn.width sn.height with
  | error d => exact .inl ⟨d, rfl, exec_gen_transform_error h ht⟩
  | ok r =>
    obtain ⟨T, bytes⟩ := r
    right
    have ha := assemble_eq s.params.outCap (s.bm.writeRun 0 bytes) s.out T sn.genFeed
    by_cases h1 : s.params.outCap < 5 + 8 * blockCount T + 48 * T
    · rw [if_pos h1] at ha
      exact .inl ⟨T, bytes, _, rfl, .inl ⟨rfl, .inl h1⟩, exec_gen_assemble_error h ht ha⟩
    rw [if_neg h1] at ha
    by_cases h2 : feedInRange sn.genFeed
    · rw [if_neg (not_not.mpr h2)] at ha
      by_cases h3 : s.params.outCap < streamLength T
      · rw [if_pos h3] at ha
        exact .inl ⟨T, bytes, _, rfl, .inl ⟨rfl, .inr ⟨h2, h3⟩⟩, exec_gen_assemble_error h ht ha⟩
      · rw [if_neg h3] at ha
        exact .inr ⟨T, bytes, rfl, h2, by omega, exec_gen_ok h ht ha⟩
    · rw [if_pos h2] at ha
      exact .inl ⟨T, bytes, _, rfl, .inr ⟨rfl, by omega, h2⟩, exec_gen_assemble_error h ht ha⟩

/-- An engine that is Idle has no command to run. -/
theorem exec_idle {s : State} (h : s.phase = .idle) (i : Instr) : exec i s = .refused .noCommand := by
  cases i <;> exact withSnapshot_idle h _

/-- R54, R113: the engine's turn. -/
theorem engineTurn_ok {s : State} {sn : Snapshot} {i : Instr} (h : s.phase = .busy sn) (hd : decodeWord sn.cmd = .ok i) :
    engineTurn s = exec i s := by
  simp [engineTurn, h, hd]

theorem engineTurn_error {s : State} {sn : Snapshot} {e : CommandError} (h : s.phase = .busy sn)
    (hd : decodeWord sn.cmd = .error e) : engineTurn s = .next (completeError sn (commandDetail e) s) := by
  simp [engineTurn, h, hd]

theorem engineTurn_idle {s : State} (h : s.phase = .idle) : engineTurn s = .next s := by
  simp [engineTurn, h]

end Sys2Proof.Machine
end

