-- ==== Sys2Proof/Laws/Host.lean ====
section
/-! SUPPORT. What the host's register and byte accesses do, once: the bits of STATUS, the register map, the host contract,
little-endian values, SRC writes, reads and writes of BM and OUT, and the statements WAIT and BIT. -/
namespace Sys2Proof.Machine

/-! ### STATUS bits -/

theorem statusBits_low : ∀ busy done err bmValid reject : Bool,
    (statusBits busy done err bmValid reject).getLsbD 0 = busy ∧
    (statusBits busy done err bmValid reject).getLsbD 1 = done ∧
    (statusBits busy done err bmValid reject).getLsbD 2 = err ∧
    (statusBits busy done err bmValid reject).getLsbD 3 = bmValid ∧
    (statusBits busy done err bmValid reject).getLsbD 4 = reject := by decide

theorem statusBits_high (busy done err bmValid reject : Bool) {k : Nat} (h : 5 ≤ k) :
    (statusBits busy done err bmValid reject).getLsbD k = false := by
  simp only [statusBits, BitVec.getLsbD_setWidth, BitVec.getLsbD_of_ge _ k h, Bool.and_false]

/-- R41 to R45: the bits of the STATUS word. -/
theorem statusBits_getLsbD (busy done err bmValid reject : Bool) (k : Nat) :
    (statusBits busy done err bmValid reject).getLsbD k =
      if k = 0 then busy else if k = 1 then done else if k = 2 then err else if k = 3 then bmValid
      else if k = 4 then reject else false := by
  obtain ⟨h0, h1, h2, h3, h4⟩ := statusBits_low busy done err bmValid reject
  by_cases h : 5 ≤ k
  · rw [statusBits_high _ _ _ _ _ h]
    simp [show k ≠ 0 by omega, show k ≠ 1 by omega, show k ≠ 2 by omega, show k ≠ 3 by omega, show k ≠ 4 by omega]
  · obtain rfl | rfl | rfl | rfl | rfl : k = 0 ∨ k = 1 ∨ k = 2 ∨ k = 3 ∨ k = 4 := by omega
    · exact h0
    · exact h1
    · exact h2
    · exact h3
    · exact h4

/-! ### The fields of a STATUS or CTRL write -/

@[simp] theorem writeStatus_done (v : Word) (r : Regs) : (writeStatus v r).done = (r.done && !v.getLsbD 1) := rfl
@[simp] theorem writeStatus_reject (v : Word) (r : Regs) : (writeStatus v r).reject = (r.reject && !v.getLsbD 4) := rfl
@[simp] theorem writeStatus_err (v : Word) (r : Regs) : (writeStatus v r).err = (r.err && !v.getLsbD 2) := by
  unfold writeStatus; cases v.getLsbD 2 <;> simp [returnFromError]
@[simp] theorem writeStatus_errInfo (v : Word) (r : Regs) :
    (writeStatus v r).errInfo = if v.getLsbD 2 = true then ErrInfo.none else r.errInfo := by
  unfold writeStatus; cases v.getLsbD 2 <;> rfl

/-- R56: a STATUS write changes those four fields and no other. -/
theorem writeStatus_frame (v : Word) (r : Regs) : writeStatus v r = { r with
    done := r.done && !v.getLsbD 1
    err := r.err && !v.getLsbD 2
    reject := r.reject && !v.getLsbD 4
    errInfo := if v.getLsbD 2 = true then ErrInfo.none else r.errInfo } := by
  unfold writeStatus; cases v.getLsbD 2 <;> simp [returnFromError]

theorem writeCtrl_reset {v : Word} (s : State) (h : v.getLsbD 31 = true) : writeCtrl v s = softReset s := if_pos h
theorem writeCtrl_fields {v : Word} (s : State) (h : v.getLsbD 31 = false) :
    writeCtrl v s = { s with regs := writeCtrlFields v s.regs } := by
  unfold writeCtrl; rw [h]; rfl

/-- R271. -/
theorem writeCmd_accept {w : Word} {s : State} (hb : s.busy = false) (he : s.regs.err = false) :
    writeCmd w s = accept w s := by
  unfold writeCmd; rw [if_neg (by simp [hb, he])]

/-- R272. -/
theorem writeCmd_reject {w : Word} {s : State} (h : s.busy = true ∨ s.regs.err = true) :
    writeCmd w s = { s with regs := { s.regs with reject := true } } := if_pos h

/-! ### The register map -/

@[simp] theorem regAt_offset (r : Reg) : regAt r.offset = some r := by cases r <;> rfl

theorem offset_of_regAt {a : Nat} {r : Reg} (h : regAt a = some r) : a = r.offset := by
  have := List.find?_some h
  simpa [eq_comm] using this

theorem offset_legal (r : Reg) : r.offset % 4 = 0 ∧ r.offset < 0x40 := by cases r <;> simp [Reg.offset]

/-- R81, R90: there is a register at each multiple of 4 below 0x40, and nowhere else. -/
theorem regAt_iff (a : Nat) : (∃ r, regAt a = some r) ↔ a % 4 = 0 ∧ a < 0x40 := by
  constructor
  · rintro ⟨r, h⟩
    rw [offset_of_regAt h]
    exact offset_legal r
  · rintro ⟨h1, h2⟩
    interval_cases a <;> simp at h1 <;> exact ⟨_, rfl⟩

/-! ### The host contract (R90) -/

theorem checkRegAccess_offset (r : Reg) : checkRegAccess r.offset 4 = .ok r := by simp [checkRegAccess]

/-- Everything the check of a register access can answer. -/
theorem checkRegAccess_cases (addr n : Nat) :
    (∃ r, checkRegAccess addr n = .ok r ∧ n = 4 ∧ addr = r.offset ∧ addr % 4 = 0 ∧ addr < 0x40) ∨
    (checkRegAccess addr n = .error .badRegAccess ∧ ¬ (n = 4 ∧ addr % 4 = 0 ∧ addr < 0x40)) := by
  unfold checkRegAccess
  by_cases h : n = 4
  · rw [if_pos h]
    cases hr : regAt addr with
    | some r => exact .inl ⟨r, rfl, h, offset_of_regAt hr, (regAt_iff addr).mp ⟨r, hr⟩⟩
    | none =>
      refine .inr ⟨rfl, fun h2 => ?_⟩
      obtain ⟨r, h3⟩ := (regAt_iff addr).mpr h2.2
      rw [h3] at hr; cases hr
  · rw [if_neg h]; exact .inr ⟨rfl, fun h2 => h h2.1⟩

/-- Everything the check of a byte access can answer. -/
theorem checkByteAccess_cases (p : Params) (sp : Space) (addr n : Nat) :
    (checkByteAccess p sp addr n = .ok () ∧ accessWidth n ∧ addr + n ≤ p.size sp) ∨
    ((checkByteAccess p sp addr n = .error .badWidth ∨ checkByteAccess p sp addr n = .error .pastEnd) ∧
      ¬ (accessWidth n ∧ addr + n ≤ p.size sp)) := by
  unfold checkByteAccess
  by_cases h : accessWidth n
  · rw [if_neg (not_not.mpr h)]
    by_cases h2 : p.size sp < addr + n
    · rw [if_pos h2]; exact .inr ⟨.inr rfl, fun h3 => by omega⟩
    · rw [if_neg h2]; exact .inl ⟨rfl, h, by omega⟩
  · rw [if_pos h]; exact .inr ⟨.inl rfl, fun h3 => h h3.1⟩

theorem checkByteAccess_ok {p : Params} {sp : Space} {addr n : Nat} (hn : accessWidth n) (h : addr + n ≤ p.size sp) :
    checkByteAccess p sp addr n = .ok () := by
  rcases checkByteAccess_cases p sp addr n with h2 | h2
  · exact h2.1
  · exact absurd ⟨hn, h⟩ h2.2

/-! ### Register accesses -/

theorem hostWrite_reg (s : State) (r : Reg) (v : Word) : hostWrite s .reg r.offset 4 v = .ok (regWrite v s r) := by
  simp [hostWrite, checkRegAccess_offset, Except.map]

theorem hostRead_reg (s : State) (r : Reg) : hostRead s .reg r.offset 4 = .ok (regRead s r) := by
  simp [hostRead, checkRegAccess_offset, Except.map]

theorem regRead_idle {s : State} (h : s.busy = false) (r : Reg) : regRead s r = (regValue s r, s) := by
  simp [regRead, h]

theorem regRead_busy {s : State} (h : s.busy = true) (r : Reg) :
    regRead s r = (regValueBusy s (Config.busyWord s.free) r, s.drawn 1) := by
  simp [regRead, h]

/-- R92: the registers whose reads are exact while a command runs. -/
theorem regRead_exact (s : State) {r : Reg} (h1 : r ≠ .status) (h2 : r ≠ .bmH) (h3 : r ≠ .outLen) (h4 : r ≠ .blocks) :
    (regRead s r).1 = regValue s r := by
  unfold regRead
  split
  · cases r <;> simp_all [regValueBusy]
  · rfl

/-! ### Little-endian values (R87) -/

@[simp] theorem length_leBytes (v : Word) (n : Nat) : (leBytes v n).length = n := by simp [leBytes]

theorem getElem_leBytes {v : Word} {n k : Nat} (h : k < (leBytes v n).length) :
    ((leBytes v n)[k]).toNat = v.toNat / 256 ^ k % 256 := by
  simp only [leBytes, List.getElem_map, List.getElem_range, BitVec.extractLsb'_toNat, Nat.shiftRight_eq_div_pow]
  rw [show (256 : Nat) ^ k = 2 ^ (8 * k) by rw [Nat.pow_mul]]

/-- The number that bytes stand for, lowest byte first. -/
def leNat (bs : List Byte) : Nat := bs.foldr (fun b acc => b.toNat + 256 * acc) 0

theorem leNat_lt (bs : List Byte) : leNat bs < 256 ^ bs.length := by
  induction bs with
  | nil => simp [leNat]
  | cons b bs ih =>
    have hb := b.isLt
    have e : leNat (b :: bs) = b.toNat + 256 * leNat bs := rfl
    rw [e, List.length_cons, Nat.pow_succ]
    omega

theorem leNat_digit (bs : List Byte) : ∀ (k : Nat) (h : k < bs.length), leNat bs / 256 ^ k % 256 = (bs[k]).toNat := by
  induction bs with
  | nil => intro k h; simp at h
  | cons b bs ih =>
    intro k h
    have hb := b.isLt
    have e : leNat (b :: bs) = b.toNat + 256 * leNat bs := rfl
    cases k with
    | zero => rw [e]; simp; omega
    | succ k =>
      rw [e, Nat.pow_succ', ← Nat.div_div_eq_div_mul,
        show (b.toNat + 256 * leNat bs) / 256 = leNat bs by omega]
      exact ih k (by simpa using h)

theorem toNat_leValue {bs : List Byte} (h : bs.length ≤ 4) : (leValue bs).toNat = leNat bs := by
  have h1 := leNat_lt bs
  have h2 : 256 ^ bs.length ≤ 256 ^ 4 := Nat.pow_le_pow_right (by omega) h
  show (BitVec.ofNat 32 (leNat bs)).toNat = leNat bs
  rw [BitVec.toNat_ofNat]
  exact Nat.mod_eq_of_lt (by omega)

/-- A number is told by its base-256 digits. -/
theorem eq_of_digits : ∀ (n a b : Nat), a < 256 ^ n → b < 256 ^ n →
    (∀ k, k < n → a / 256 ^ k % 256 = b / 256 ^ k % 256) → a = b := by
  intro n
  induction n with
  | zero => intro a b ha hb _; simp at ha hb; omega
  | succ n ih =>
    intro a b ha hb h
    rw [Nat.pow_succ] at ha hb
    have h0 := h 0 (by omega)
    simp at h0
    have := ih (a / 256) (b / 256) (by omega) (by omega) (fun k hk => by
      have := h (k + 1) (by omega)
      rwa [Nat.pow_succ, Nat.mul_comm, ← Nat.div_div_eq_div_mul, ← Nat.div_div_eq_div_mul] at this)
    omega

theorem leNat_leBytes (v : Word) (n : Nat) : leNat (leBytes v n) = v.toNat % 256 ^ n := by
  apply eq_of_digits n
  · simpa using leNat_lt (leBytes v n)
  · exact Nat.mod_lt _ (Nat.pow_pos (by omega))
  · intro k hk
    rw [leNat_digit _ k (by simpa using hk), getElem_leBytes]
    obtain ⟨m, rfl⟩ := Nat.exists_eq_add_of_lt hk
    rw [show k + m + 1 = k + (m + 1) by omega, Nat.pow_add, Nat.mod_mul_right_div_self, Nat.pow_succ,
      Nat.mul_comm (256 ^ m) 256, Nat.mod_mul_right_mod]

/-! ### Everything a host access can answer (R90) -/

theorem hostRead_cases (s : State) (sp : Space) (addr n : Nat) :
    (∃ r, hostRead s sp addr n = .ok r) ∨
    (¬ accessLegal s.params sp addr n ∧ (hostRead s sp addr n = .error .badRegAccess ∨
      hostRead s sp addr n = .error .badWidth ∨ hostRead s sp addr n = .error .pastEnd)) := by
  cases sp
  · rcases checkRegAccess_cases addr n with ⟨r, e, rfl, rfl, _⟩ | ⟨e, h⟩
    · exact .inl ⟨_, hostRead_reg s r⟩
    · exact .inr ⟨h, .inl (by simp [hostRead, e, Except.map])⟩
  all_goals
    rcases checkByteAccess_cases s.params _ addr n with ⟨e, _⟩ | ⟨e, h⟩
    · left; simp only [hostRead]; rw [e]; exact ⟨_, rfl⟩
    · right; refine ⟨h, ?_⟩; simp only [hostRead]; rcases e with e | e <;> rw [e] <;> simp [Except.map]

theorem hostWrite_cases (s : State) (sp : Space) (addr n : Nat) (v : Word) :
    (∃ t, hostWrite s sp addr n v = .ok t) ∨
    (¬ accessLegal s.params sp addr n ∧ (hostWrite s sp addr n v = .error .badRegAccess ∨
      hostWrite s sp addr n v = .error .badWidth ∨ hostWrite s sp addr n v = .error .pastEnd)) := by
  cases sp
  · rcases checkRegAccess_cases addr n with ⟨r, e, rfl, rfl, _⟩ | ⟨e, h⟩
    · exact .inl ⟨_, hostWrite_reg s r v⟩
    · exact .inr ⟨h, .inl (by simp [hostWrite, e, Except.map])⟩
  all_goals
    rcases checkByteAccess_cases s.params _ addr n with ⟨e, _⟩ | ⟨e, h⟩
    · left; simp only [hostWrite]; rw [e]; exact ⟨_, rfl⟩
    · right; refine ⟨h, ?_⟩; simp only [hostWrite]; rcases e with e | e <;> rw [e] <;> simp [Except.map]

/-- R91: a host read changes nothing but the number of the next free value. -/
theorem hostRead_state {s t : State} {sp : Space} {addr n : Nat} {v : Word} (h : hostRead s sp addr n = .ok (v, t)) :
    t = s ∨ t = s.drawn 1 := by
  cases sp
  · rcases checkRegAccess_cases addr n with ⟨r, e, rfl, rfl, _⟩ | ⟨e, _⟩
    · rw [hostRead_reg] at h
      unfold regRead at h
      split at h <;> cases h
      · exact .inr rfl
      · exact .inl rfl
    · simp [hostRead, e, Except.map] at h
  all_goals
    rcases checkByteAccess_cases s.params _ addr n with ⟨e, _⟩ | ⟨e, _⟩
    · simp only [hostRead] at h
      rw [e] at h
      simp only [Except.map, resultRead] at h
      first
        | (cases h; exact .inl rfl)
        | (split at h <;> cases h
           · exact .inr rfl
           · exact .inl rfl)
    · simp only [hostRead] at h
      rcases e with e | e <;> rw [e] at h <;> simp [Except.map] at h

/-! ### SRC writes (R82, R97) -/

theorem srcWrite_idle {s : State} (h : s.busy = false) (addr : Nat) (bs : List Byte) :
    srcWrite addr bs s = { s with src := s.src.writeRun addr bs } := by
  have : State.busy { s with src := s.src.writeRun addr bs } = false := h
  simp [srcWrite, h]

theorem srcWrite_busy {s : State} (h : s.busy = true) (addr : Nat) (bs : List Byte) :
    srcWrite addr bs s = { s with
      src := s.src.writeRun addr bs
      raced := putRun s.raced addr ((List.range bs.length).map fun k => s.free + k)
      free := s.free + bs.length } := by
  simp [srcWrite, h]

@[simp] theorem srcWrite_src (addr : Nat) (bs : List Byte) (s : State) :
    (srcWrite addr bs s).src = s.src.writeRun addr bs := by unfold srcWrite; split <;> rfl
@[simp] theorem srcWrite_regs (addr : Nat) (bs : List Byte) (s : State) : (srcWrite addr bs s).regs = s.regs := by
  unfold srcWrite; split <;> rfl
@[simp] theorem srcWrite_phase (addr : Nat) (bs : List Byte) (s : State) : (srcWrite addr bs s).phase = s.phase := by
  unfold srcWrite; split <;> rfl
@[simp] theorem srcWrite_bm (addr : Nat) (bs : List Byte) (s : State) : (srcWrite addr bs s).bm = s.bm := by
  unfold srcWrite; split <;> rfl
@[simp] theorem srcWrite_out (addr : Nat) (bs : List Byte) (s : State) : (srcWrite addr bs s).out = s.out := by
  unfold srcWrite; split <;> rfl
@[simp] theorem srcWrite_params (addr : Nat) (bs : List Byte) (s : State) : (srcWrite addr bs s).params = s.params := by
  unfold srcWrite; split <;> rfl
@[simp] theorem srcWrite_host (addr : Nat) (bs : List Byte) (s : State) : (srcWrite addr bs s).host = s.host := by
  unfold srcWrite; split <;> rfl

theorem hostWrite_src {s : State} {addr n : Nat} {v : Word} (hn : accessWidth n) (h : addr + n ≤ s.params.srcCap) :
    hostWrite s .src addr n v = .ok (srcWrite addr (leBytes v n) s) := by
  simp only [hostWrite]; rw [checkByteAccess_ok hn h]; rfl

theorem hostRead_src {s : State} {addr n : Nat} (hn : accessWidth n) (h : addr + n ≤ s.params.srcCap) :
    hostRead s .src addr n = .ok (leValue (s.src.readRun .src addr n), s) := by
  simp only [hostRead]; rw [checkByteAccess_ok hn h]; rfl

/-! ### BM and OUT accesses (R84, R85, R92) -/

/-- R84, R85: a host write to BM or OUT changes nothing. -/
theorem hostWrite_result {s : State} {sp : Space} {addr n : Nat} {v : Word} (hsp : sp = .bm ∨ sp = .out)
    (hn : accessWidth n) (h : addr + n ≤ s.params.size sp) : hostWrite s sp addr n v = .ok s := by
  rcases hsp with rfl | rfl <;> simp only [hostWrite] <;> rw [checkByteAccess_ok hn h] <;> rfl

/-- R92: a read of BM or OUT while a command runs. -/
theorem hostRead_result_busy {s : State} {sp : Space} {addr n : Nat} (hsp : sp = .bm ∨ sp = .out) (hb : s.busy = true)
    (hn : accessWidth n) (h : addr + n ≤ s.params.size sp) :
    hostRead s sp addr n = .ok (leValue (leBytes (Config.busyWord s.free) n), s.drawn 1) := by
  rcases hsp with rfl | rfl <;> simp only [hostRead] <;> rw [checkByteAccess_ok hn h] <;>
    simp [Except.map, resultRead, hb]

/-! ### The host's statements (R126) -/

/-- A host read leaves the host where it is. -/
theorem hostRead_host {s t : State} {sp : Space} {addr n : Nat} {v : Word} (h : hostRead s sp addr n = .ok (v, t)) :
    t.host = s.host := by
  rcases hostRead_state h with rfl | rfl <;> rfl

/-- A host write leaves the host where it is. -/
theorem hostWrite_host {s t : State} {sp : Space} {addr n : Nat} {v : Word} (h : hostWrite s sp addr n v = .ok t) :
    t.host = s.host := by
  cases sp
  · rcases checkRegAccess_cases addr n with ⟨r, _, rfl, rfl, _⟩ | ⟨e, _⟩
    · rw [hostWrite_reg] at h
      cases h
      cases r <;> first | rfl | (simp only [regWrite, writeCtrl]; split <;> rfl) | (simp only [regWrite, writeCmd]; split <;> rfl)
    · simp [hostWrite, e, Except.map] at h
  all_goals
    rcases checkByteAccess_cases s.params _ addr n with ⟨e, _⟩ | ⟨e, _⟩
    · simp only [hostWrite] at h
      rw [e] at h
      cases h
      first | rfl | exact srcWrite_host _ _ _
    · simp only [hostWrite] at h
      rcases e with e | e <;> rw [e] at h <;> simp [Except.map] at h

@[simp] theorem lookup_bind_same (name : Nat) (v : Word) (s : State) :
    lookup (s.bind name v).host.names name = some v := by
  simp [lookup_putRun]

theorem lookup_bind_other {name m : Nat} (v : Word) (s : State) (h : m ≠ name) :
    lookup (s.bind name v).host.names m = lookup s.host.names m := by
  rw [bind_host, lookup_putRun, if_neg (by simp; omega)]

/-- R41, R92: bit 0 of a STATUS read is BUSY, a command running or not. -/
@[simp] theorem regRead_status_busy (s : State) : (regRead s .status).1.getLsbD 0 = s.busy := by
  unfold regRead
  split
  · next h => simp only [regValueBusy, statusBits_getLsbD, if_true, h]
  · simp only [regValue, statusWord, statusBits_getLsbD, if_true]

/-- Everything a WAIT does in a turn: it binds `s` to the STATUS word read, and goes on when the engine is Idle. -/
theorem hostWait_eq (s : State) : hostWait s = .next (((regRead s .status).2.bind waitName (regRead s .status).1).jump
    (if s.busy then s.host.pc else s.host.pc + 1)) := by
  have hpc : (regRead s .status).2.host = s.host := by unfold regRead; split <;> rfl
  unfold hostWait
  split <;> simp only [State.jump, State.advance, State.bind, hpc]

/-- R126: a label names the first place that carries it. -/
theorem labelIndex_of_first {program : List HostStmt} {l j : Nat} (h : program[j]? = some (.label l))
    (hf : ∀ i, i < j → program[i]? ≠ some (.label l)) : labelIndex program l = some j := by
  obtain ⟨hj, h⟩ := List.getElem?_eq_some_iff.mp h
  refine List.findIdx?_eq_some_iff_getElem.mpr ⟨hj, by simpa using h, fun i hi => ?_⟩
  have := hf i hi
  rw [List.getElem?_eq_getElem (by omega)] at this
  simpa using this

end Sys2Proof.Machine
end

