-- ==== Sys2Proof/Laws/Operands.lean ====
section
/-! SUPPORT. The fields of a command word as numbers, the bytes of the frames, and the encoder commands by their frames. -/
namespace Sys2Proof.Machine

/-! ### The fields of the command word (R110) -/

theorem opField_toNat (w : Word) : (opField w).toNat = w.toNat % 256 := by
  simp [opField, BitVec.extractLsb'_toNat]

theorem selField_toNat (w : Word) : (selField w).toNat = w.toNat / 256 % 4 := by
  simp [selField, BitVec.extractLsb'_toNat, Nat.shiftRight_eq_div_pow]

theorem rsvField_toNat (w : Word) : (rsvField w).toNat = w.toNat / 1024 := by
  have h := w.isLt
  simp [rsvField, BitVec.extractLsb'_toNat, Nat.shiftRight_eq_div_pow]
  omega

theorem opField_eq (w : Word) : opField w = BitVec.ofNat 8 w.toNat := by
  apply BitVec.eq_of_toNat_eq
  simp [opField_toNat]

theorem toNat_encode (i : Instr) : (encode i).toNat = i.sel.toNat * 256 + i.op.toNat := by
  have h := i.op.isLt
  simp only [encode, BitVec.toNat_append]
  rw [← Nat.shiftLeft_add_eq_or_of_lt h, Nat.shiftLeft_eq]
  simp

/-- R111: a legal opcode is one of seven. -/
theorem opField_of_legal {w : Word} (h : ¬ ((opField w).toNat < 1 ∨ 7 < (opField w).toNat)) :
    opField w = 1#8 ∨ opField w = 2#8 ∨ opField w = 3#8 ∨ opField w = 4#8 ∨ opField w = 5#8 ∨ opField w = 6#8 ∨
      opField w = 7#8 := by
  have key : ∀ n, n < 256 → (opField w).toNat = n → opField w = BitVec.ofNat 8 n := by
    intro n hn hw
    apply BitVec.eq_of_toNat_eq
    simp [hw]
    omega
  have : (opField w).toNat = 1 ∨ (opField w).toNat = 2 ∨ (opField w).toNat = 3 ∨ (opField w).toNat = 4 ∨
      (opField w).toNat = 5 ∨ (opField w).toNat = 6 ∨ (opField w).toNat = 7 := by omega
  rcases this with h | h | h | h | h | h | h
  · exact .inl (key _ (by omega) h)
  · exact .inr (.inl (key _ (by omega) h))
  · exact .inr (.inr (.inl (key _ (by omega) h)))
  · exact .inr (.inr (.inr (.inl (key _ (by omega) h))))
  · exact .inr (.inr (.inr (.inr (.inl (key _ (by omega) h)))))
  · exact .inr (.inr (.inr (.inr (.inr (.inl (key _ (by omega) h))))))
  · exact .inr (.inr (.inr (.inr (.inr (.inr (key _ (by omega) h))))))

/-! ### Frame bytes -/

theorem lo8_eq (v : Half) : lo8 v = BitVec.ofNat 8 (v.toNat % 256) := by
  apply BitVec.eq_of_toNat_eq
  simp [lo8, BitVec.extractLsb'_toNat]

theorem hi8_eq (v : Half) : hi8 v = BitVec.ofNat 8 (v.toNat / 256) := by
  apply BitVec.eq_of_toNat_eq
  simp [hi8, BitVec.extractLsb'_toNat, Nat.shiftRight_eq_div_pow]

theorem zext8_eq (p : Sel) : zext8 p = BitVec.ofNat 8 p.toNat := by
  apply BitVec.eq_of_toNat_eq
  simp [zext8]

theorem feedByte_eq {n : Int} (h : 0 ≤ n) : feedByte n = BitVec.ofNat 8 n.toNat := by
  obtain ⟨k, rfl⟩ := Int.eq_ofNat_of_zero_le h
  simp [feedByte]

/-- R162: a little-endian u16 field reads back. -/
theorem le16_lo8_hi8 {v : Nat} (h : v < 65536) : le16 (lo8 (BitVec.ofNat 16 v)) (hi8 (BitVec.ofNat 16 v)) = v := by
  simp [le16, lo8, hi8, BitVec.extractLsb'_toNat, Nat.shiftRight_eq_div_pow]
  omega

/-! ### The encoder commands by their frames (R141, R142) -/

/-- An encoder command whose operands are legal appends its frame. -/
theorem exec_encoder {s : State} {sn : Snapshot} {i : Instr} {f : List Byte} (h : s.phase = .busy sn)
    (hf : encoderFrame sn i = some f) : exec i s = .next (appendFrame f sn s) := by
  cases i with
  | init => simp only [encoderFrame, Option.some.injEq] at hf; subst hf; exact exec_init h
  | justify pos =>
    simp only [encoderFrame] at hf
    split at hf
    · cases hf
    · rename_i hp
      simp only [Option.some.injEq] at hf
      subst hf
      rw [exec_justify h, if_neg hp, zext8_eq]; rfl
  | feed =>
    simp only [encoderFrame] at hf
    split at hf
    · rename_i hp
      have hr : feedInRange sn.feedLines := hp
      simp only [Option.some.injEq] at hf
      subst hf
      rw [exec_feed h, if_pos hr, feedByte_eq hr.1]; rfl
    · cases hf
  | rhdr mode =>
    simp only [encoderFrame, Option.some.injEq] at hf
    subst hf
    rw [exec_rhdr h]
    simp [rasterHeader, lo8_eq, hi8_eq, zext8_eq]
  | xform => cases hf
  | gen => cases hf
  | clear => cases hf

/-- An encoder command with an illegal operand fails, and changes no buffer. -/
theorem exec_encoder_none {s : State} {sn : Snapshot} {i : Instr} (h : s.phase = .busy sn)
    (hi : i = .init ∨ (∃ pos, i = .justify pos) ∨ i = .feed ∨ ∃ mode, i = .rhdr mode)
    (hf : encoderFrame sn i = none) : ∃ d, exec i s = .next (completeError sn d s) := by
  rcases hi with rfl | ⟨pos, rfl⟩ | rfl | ⟨m, rfl⟩
  · cases hf
  · simp only [encoderFrame] at hf
    split at hf
    · rename_i hp; exact ⟨_, by rw [exec_justify h, if_pos hp]⟩
    · cases hf
  · simp only [encoderFrame] at hf
    split at hf
    · cases hf
    · rename_i hp
      have hr : ¬ feedInRange sn.feedLines := hp
      exact ⟨_, by rw [exec_feed h, if_neg hr]⟩
  · cases hf

end Sys2Proof.Machine
end

