-- ==== Sys2Proof/Laws/PerInstr.lean ====
section
/-! SUPPORT. Statements about every command, one lemma a constructor. -/
namespace Sys2Proof.Laws

/-- R111, R112: the word of a command lies in the command's own row of the opcode table. -/
def OpcodeRow.Statement (i : Instr) : Prop :=
  ∃ r, opcodeTable[i.row]? = some r ∧ encode i &&& r.mask = r.pattern

theorem OpcodeRow.init : OpcodeRow.Statement .init := ⟨_, rfl, by decide⟩

theorem OpcodeRow.justify (pos : Sel) : OpcodeRow.Statement (.justify pos) := ⟨_, rfl, by revert pos; decide⟩

theorem OpcodeRow.feed : OpcodeRow.Statement .feed := ⟨_, rfl, by decide⟩

theorem OpcodeRow.rhdr (mode : Sel) : OpcodeRow.Statement (.rhdr mode) := ⟨_, rfl, by revert mode; decide⟩

theorem OpcodeRow.xform : OpcodeRow.Statement .xform := ⟨_, rfl, by decide⟩

theorem OpcodeRow.gen : OpcodeRow.Statement .gen := ⟨_, rfl, by decide⟩

theorem OpcodeRow.clear : OpcodeRow.Statement .clear := ⟨_, rfl, by decide⟩

end Sys2Proof.Laws
end

