-- ==== Sys2Proof/Tests/Slice0.lean ====
section
/-! SUPPORT. The model's own tests: expected results are those of spec/95_test_vectors.md and of the encoding tables of
spec/30_encoding.md, named in each comment; and, for each statement of Certificates/Slice0/Obligations.lean, a witness that
something meets its hypotheses, all together and clause by clause. -/
namespace Sys2Proof.Tests

open Sys2Proof Sys2Proof.Machine

/-- The outcome is a next state of which `p` holds. -/
def ends (o : Host.Outcome State Fault Refusal) (p : State → Bool) : Bool :=
  match o with
  | .next t => p t
  | .fault _ => false
  | .refused _ => false

/-- The fresh machine with other registers and capacities. -/
def fresh (r : Regs) (p : Params) : State := { State.reset with regs := r, params := p }

/-- The reset registers with source dimensions. -/
def dims (w h : Half) : Regs := { Regs.reset with srcW := w, srcH := h }

/-- The large parameters with another OUT_CAP. -/
def outCapOf (n : Nat) : Params := { Params.large with outCap := n }

/-! ### WellFormed refuses the one ill-formed term -/

theorem test_wellFormed_refuses_justify_three : (Instr.justify 3#2).WellFormed = false := by decide

theorem test_wellFormed_accepts_the_others :
    [Instr.init, .justify 0#2, .justify 1#2, .justify 2#2, .feed, .rhdr 0#2, .rhdr 3#2, .xform, .gen, .clear].all
      Instr.WellFormed = true := by decide

/-! ### Decode: words written out from the encoding tables of R110 to R112 and R127 -/

/-- OP 00000001, SEL 00, RSV 0. -/
theorem test_decode_init : decodeWord 0b00000000000000000000000000000001#32 = .ok .init := by decide

/-- OP 00000010, SEL 10. -/
theorem test_decode_justify : decodeWord 0b00000000000000000000001000000010#32 = .ok (.justify 2#2) := by decide

/-- OP 00000011. -/
theorem test_decode_feed : decodeWord 0b00000000000000000000000000000011#32 = .ok .feed := by decide

/-- OP 00000100, SEL 01. -/
theorem test_decode_rhdr : decodeWord 0b00000000000000000000000100000100#32 = .ok (.rhdr 1#2) := by decide

/-- OP 00000101. -/
theorem test_decode_xform : decodeWord 0b00000000000000000000000000000101#32 = .ok .xform := by decide

/-- OP 00000110. -/
theorem test_decode_gen : decodeWord 0b00000000000000000000000000000110#32 = .ok .gen := by decide

/-- OP 00000111. -/
theorem test_decode_clear : decodeWord 0b00000000000000000000000000000111#32 = .ok .clear := by decide

/-- L2-D1 to L2-D10. -/
theorem test_decode_rejects_by_name :
    [0x00000000#32, 0x000000FF#32, 0x00000008#32].map decodeWord = List.replicate 3 (.error .illegalOpcode) ∧
    [0x00000401#32, 0x00000101#32, 0x00000702#32, 0x80000006#32, 0x00000305#32, 0x00000107#32].map decodeWord =
      List.replicate 6 (.error .reservedBits) ∧
    decodeWord 0x00000302#32 = .error .badJustify := by decide

/-- The bytes of 0x00000102, lowest address first (R87), followed by another byte. -/
theorem test_decode_bytes : decode [0x02#8, 0x01#8, 0x00#8, 0x00#8, 0xAA#8] = .ok (.justify 1#2, [0xAA#8]) ∧
    decode [0x02#8, 0x01#8, 0x00#8] = .error .truncated := by decide

theorem test_decodeTableWord :
    decodeTableWord 32 0x00000304 = some (.rhdr 3#2) ∧ decodeTableWord 32 0x00000302 = none ∧
    decodeTableWord 8 0x06 = some .gen ∧ decodeTableWord 40 0x01 = none := by decide

/-! ### One command, the first one after reset, as step runs it -/

/-- L1-10: INIT gives 1B 40; STATUS = 0x2 (L2-E1). -/
theorem test_init : ends (step (State.reset.withFetchWord 32 0x00000001)) (fun t =>
    decide (t.regs.outLen = 2) && decide (t.out.readRun .out 0 2 = [0x1B#8, 0x40#8]) &&
      decide (statusWord t = 0x00000002#32)) = true := by decide

/-- L2-E14: INIT with OUT_LEN = OUT_CAP = 8 gives STATUS = 0x4, ERR_INFO = 0x00010905, OUT_LEN = 8. -/
theorem test_init_full : ends (step ((fresh { Regs.reset with outLen := 8 } (outCapOf 8)).withFetchWord 32 0x00000001))
    (fun t => decide (t.regs.outLen = 8) && decide (t.regs.errInfo.word = 0x00010905#32) &&
      decide (statusWord t = 0x00000004#32) && decide (t.out.cells = [])) = true := by decide

/-- L1-10: JUSTIFY center gives 1B 61 01. -/
theorem test_justify_center : ends (step (State.reset.withFetchWord 32 0x00000102)) (fun t =>
    decide (t.regs.outLen = 3) && decide (t.out.readRun .out 0 3 = [0x1B#8, 0x61#8, 0x01#8])) = true := by decide

/-- L2-D7: word 0x302 gives ERR_INFO = 0x00020704, OUT_LEN = 0, STATUS = 0x4. -/
theorem test_justify_three : ends (step (State.reset.withFetchWord 32 0x00000302)) (fun t =>
    decide (t.regs.outLen = 0) && decide (t.regs.errInfo.word = 0x00020704#32) &&
      decide (statusWord t = 0x00000004#32)) = true := by decide

/-- L2-E6: FEED = 255 gives 1B 64 FF. -/
theorem test_feed_255 : ends (step ((fresh { Regs.reset with feed := 255#32 } Params.large).withFetchWord 32 0x00000003))
    (fun t => decide (t.out.readRun .out 0 3 = [0x1B#8, 0x64#8, 0xFF#8]) && decide (t.regs.outLen = 3)) = true := by decide

/-- L2-E9: FEED = 0x80000000 gives ERR_INFO = 0x00030101. -/
theorem test_feed_most_negative :
    ends (step ((fresh { Regs.reset with feed := 0x80000000#32 } Params.large).withFetchWord 32 0x00000003))
    (fun t => decide (t.regs.errInfo.word = 0x00030101#32) && decide (t.regs.outLen = 0)) = true := by decide

/-- L1-14: RHDR with HDR_WB = 0x1234, HDR_LINES = 0x00FF, word 0x304. -/
theorem test_rhdr : ends (step ((fresh { Regs.reset with hdrWb := 0x1234#16, hdrLines := 0x00FF#16 } Params.large).withFetchWord
      32 0x00000304))
    (fun t => decide (t.out.readRun .out 0 8 = [0x1D#8, 0x76#8, 0x30#8, 0x03#8, 0x34#8, 0x12#8, 0xFF#8, 0x00#8])) = true := by
  decide

/-- L2-E17: RHDR exactly fills OUT_CAP = 8. -/
theorem test_rhdr_exact : ends (step ((fresh { Regs.reset with hdrWb := 48#16 } (outCapOf 8)).withFetchWord 32 0x00000004))
    (fun t => decide (t.regs.outLen = 8) && decide (statusWord t = 0x00000002#32)) = true := by decide

/-- L2-T4: XFORM of 385 by 1 succeeds with BM_H = 0 and STATUS = 0xA. -/
theorem test_xform_zero_height : ends (step ((fresh (dims 385#16 1#16) Params.large).withFetchWord 32 0x00000005))
    (fun t => decide (t.regs.bmH = 0) && decide (statusWord t = 0x0000000A#32) && decide (t.bm.cells = [])) = true := by decide

/-- L2-T5: XFORM of 1 by 65535 with BM_MAX_LINES = 1000 gives ERR_INFO = 0x00050805. -/
theorem test_xform_capacity :
    ends (step ((fresh (dims 1#16 65535#16) { Params.large with bmMaxLines := 1000 }).withFetchWord 32 0x00000005))
    (fun t => decide (t.regs.errInfo.word = 0x00050805#32)) = true := by decide

/-- L1-11: GEN of 385 by 1 with the default feed. -/
theorem test_gen_zero_height : ends (step ((fresh (dims 385#16 1#16) Params.large).withFetchWord 32 0x00000006))
    (fun t => decide (t.out.readRun .out 0 8 =
        [0x1B#8, 0x40#8, 0x1B#8, 0x61#8, 0x01#8, 0x1B#8, 0x64#8, 0x04#8]) &&
      decide (t.regs.outLen = 8) && decide (t.regs.blocks = 0) && decide (statusWord t = 0x0000000A#32)) = true := by decide

/-- L2-G3: GEN with W = 0 and FEED = -1 reports ZERO_DIM: ERR_INFO = 0x00060202. -/
theorem test_gen_zero_dim : ends (step ((fresh { dims 0#16 2#16 with feed := 0xFFFFFFFF#32, feedDefault := false }
      Params.large).withFetchWord 32 0x00000006))
    (fun t => decide (t.regs.errInfo.word = 0x00060202#32) && decide (t.regs.outLen = 0)) = true := by decide

/-- L2-C6: CLEAR after INIT and JUSTIFY center: OUT_LEN = 0, STATUS = 0x2, the bytes stay. -/
theorem test_clear : ends (step ({ fresh { Regs.reset with outLen := 5 } Params.large with
      out := { epoch := 0, cells := [(0, 0x1B#8), (1, 0x40#8), (2, 0x1B#8), (3, 0x61#8), (4, 0x01#8)] } }.withFetchWord
        32 0x00000007))
    (fun t => decide (t.regs.outLen = 0) && decide (statusWord t = 0x00000002#32) &&
      decide (t.out.readRun .out 2 3 = [0x1B#8, 0x61#8, 0x01#8])) = true := by decide

/-! ### The transform step on values -/

/-- L2-T3, L1-2. -/
theorem test_targetHeight : targetHeight 7 3 = 164 ∧ targetHeight 1000 9 = 3 ∧ targetHeight 1 1 = 384 ∧
    targetHeight 65535 170 = 0 ∧ targetHeight 1 65535 = 25165440 := by decide

/-- The samples of L2-T8. -/
def t8 (i : Nat) : Byte :=
  if i = 0 ∨ i = 1 ∨ i = 2 ∨ i = 3 ∨ i = 770 then 127#8 else if i = 768 ∨ i = 769 ∨ i = 771 then 128#8 else 255#8

/-- L2-T8: 127.5 rounds half up to 128, 127.25 to 127. -/
theorem test_bilinear_rounding : bilinearNat 768 2 1 t8 0 0 = 128 ∧ bilinearNat 768 2 1 t8 1 0 = 127 ∧
    bilinearTaps 768 2 1 1 0 = [2, 3, 770, 771] := by decide

/-- L2-T9: upscaling by two. -/
theorem test_bilinear_upscale :
    [190, 191, 192, 193].map (fun x => bilinearNat 192 1 2 (fun i => if i < 96 then 0#8 else 255#8) x 1) =
      [0, 64, 191, 255] := by decide

/-- L2-T7: even pixels print; and the threshold of R195 at 127 and 128. -/
theorem test_packing : packByte (fun k => decide (k % 2 = 0)) = 0xAA#8 ∧ packByte (fun k => decide (k = 0)) = 0x80#8 ∧
    printBit 127#8 = true ∧ printBit 128#8 = false := by decide

/-! ### The host -/

/-- L2-C9: writing 0x9 to STATUS = 0xA changes nothing. -/
theorem test_status_write : statusWord { State.reset with regs := writeStatus 0x9#32 { Regs.reset with
    done := true, bmValid := true } } = 0x0000000A#32 := by decide

/-- L2-C1, L2-E12, L2-C8: register reads after writes. -/
theorem test_register_reads : regValue (regWrite 0x3#32 State.reset .ctrl) .ctrl = 0x3#32 ∧
    regValue (regWrite 0x12345678#32 State.reset .hdrWb) .hdrWb = 0x00005678#32 ∧
    regValue State.reset .id = 0x54303207#32 ∧ regValue (regWrite 5#32 State.reset .rsv34) .rsv34 = 0#32 := by decide

/-- L2-C7: OUTR 0, 4 of 1B 40 1B 61. -/
theorem test_little_endian : leValue [0x1B#8, 0x40#8, 0x1B#8, 0x61#8] = 0x611B401B#32 ∧
    leBytes 0x611B401B#32 2 = [0x1B#8, 0x40#8] := by decide

/-- L2-C12: a 2-byte read of STATUS and a 4-byte read at 0x0A are refused. -/
theorem test_refused_accesses :
    checkRegAccess 0x08 2 = .error .badRegAccess ∧ checkRegAccess 0x0A 4 = .error .badRegAccess ∧
    checkRegAccess 0x40 4 = .error .badRegAccess ∧ checkByteAccess Params.large .src 0 3 = .error .badWidth ∧
    checkByteAccess (outCapOf 8) .out 7 2 = .error .pastEnd ∧ checkByteAccess (outCapOf 8) .out 6 2 = .ok () := by decide

/-- R127: the expansion of GEN with an explicit feed of -1. -/
theorem test_asm_gen : (AsmStmt.genFeed 384#32 2#32 (-1)).expand =
    [.write .reg 0x14 4 384#32, .write .reg 0x18 4 2#32, .write .reg 0x1C 4 0xFFFFFFFF#32, .write .reg 0x04 4 0#32,
      .write .reg 0x0C 4 0x00000006#32] := by decide

/-- R86, R126: a WR statement, by register and by map address, issues the command; R278: the run is then not over. -/
theorem test_host_turn :
    ends (step (State.reset.withProgram (assembleProgram [.init]))) (fun t => t.busy && decide (t.regs.cmd = 1#32) &&
      !t.runOver) = true ∧
    ends (step (State.reset.withProgram [.busWrite 0x0C 4 1#32])) (fun t => t.busy) = true ∧
    step (State.reset.withProgram [.busRead 64 4 0]) = .refused .unmapped := by
  refine ⟨by decide, by decide, rfl⟩

/-- R126: WAIT binds `s` to the STATUS word it reads, and goes on when the engine is Idle (L3-P3: STATUS = 0x0000000C after a
failed FEED with BM_VALID = 1); a WAIT of a Busy engine stays. -/
theorem test_wait :
    ends (step ((fresh { Regs.reset with err := true, bmValid := true } Params.large).withProgram [.wait])) (fun t =>
      decide (lookup t.host.names waitName = some 0x0000000C#32) && decide (t.host.pc = 1)) = true ∧
    ends (hostTurn ((accept 3#32 State.reset).withProgram [.wait])) (fun t => decide (t.host.pc = 0) &&
      (lookup t.host.names waitName).isSome && t.busy) = true := by decide

/-- R123: a reader of INIT, RHDR with two data bytes, FEED. -/
theorem test_readStream : readStream 3 [0x1B#8, 0x40#8, 0x1D#8, 0x76#8, 0x30#8, 0x00#8, 0x01#8, 0x00#8, 0x02#8, 0x00#8,
      0xAA#8, 0x55#8, 0x1B#8, 0x64#8, 0x0A#8] =
    some [.init, .raster 0#8 1 2 [0xAA#8, 0x55#8], .feed 0x0A#8] := by decide

/-! ### Witnesses: for each statement, something that meets its hypotheses -/

/-- An engine that has accepted the word `w`. -/
def running (w : Word) (r : Regs) (p : Params) : State := accept w (fresh r p)

/-- What it has captured. -/
def captured (w : Word) (r : Regs) : Snapshot := takeSnapshot r w

theorem running_busy (w : Word) (r : Regs) (p : Params) : (running w r p).phase = .busy (captured w r) := rfl

/-- The registers with another FEED value, not the default. -/
def withFeed (r : Regs) (n : Word) : Regs := { r with feed := n, feedDefault := false }

/-- A 1 by 1 source, whose bitmap has 384 rows, two blocks. -/
theorem ready_one {s : State} (hp : s.port = []) (hr : s.raced = []) (hc : 1 ≤ s.params.srcCap)
    (hb : 384 ≤ s.params.bmMaxLines) : SourceReady s 1 1 where
  width_pos := by decide
  height_pos := by decide
  fits := hb
  readable := by
    intro x y i _ _ hi
    have h0 : i = 0 := by
      have a1 : (columnTap 1 x).lo ≤ 1 - 1 := by unfold columnTap; exact axisTap_lo_le (by decide)
      have a2 : (columnTap 1 x).hi ≤ 1 - 1 := by unfold columnTap; exact axisTap_hi_le
      have a3 : (rowTap 1 (targetHeight 1 1) y).lo ≤ 1 - 1 := by unfold rowTap; exact axisTap_lo_le (by decide)
      have a4 : (rowTap 1 (targetHeight 1 1) y).hi ≤ 1 - 1 := by unfold rowTap; exact axisTap_hi_le
      simp only [resample, bilinear, bilinearTaps, List.mem_cons, List.not_mem_nil, or_false] at hi
      omega
    subst h0
    exact ⟨_, by simp only [srcRead, hp, hr, lookup]; rw [if_neg (by omega)]⟩

theorem tap_zero : 0 ∈ allTaps resample 1 1 (targetHeight 1 1) := by
  refine mem_allTaps.mpr ⟨0, 0, by decide, by decide, ?_⟩
  show 0 ∈ bilinearTaps 1 1 384 0 0
  decide

/-- Another lawful kernel: the nearest sample. -/
def nearest : Kernel where
  taps := fun W H T x y => [y * H / T * W + x * W / 384]
  value := fun W H T S x y => S (y * H / T * W + x * W / 384)

theorem nearest_lawful : Kernel.Lawful nearest where
  taps_lt := by
    intro W H x y i hW hH hx hy hi
    simp only [nearest, List.mem_cons, List.not_mem_nil, or_false] at hi
    rw [hi]
    have h1 : x * W / 384 < W := Nat.div_lt_of_lt_mul (Nat.mul_lt_mul_of_pos_right hx hW)
    have h2 : y * H / targetHeight W H < H := Nat.div_lt_of_lt_mul (Nat.mul_lt_mul_of_pos_right hy hH)
    exact sampleIndex_lt (by omega) (by omega) hW hH
  depends := by
    intro W H x y S S' _ _ _ _ h
    exact h _ (by simp [nearest])
  constant := by
    intro W H x y S c _ _ _ _ h
    exact h _ (by simp [nearest])
  identity := by
    intro H x y S hH _ _
    show S (y * H / H * 384 + x * 384 / 384) = _
    rw [Nat.mul_div_cancel _ hH, Nat.mul_div_cancel _ (by decide)]

/-- DecoderAgreesWithTheOpcodeTable: a word of JUSTIFY's row on each side of the third clause. -/
theorem witness_DecoderAgreesWithTheOpcodeTable :
    opcodeTable[1]? = some { mnemonic := "JUSTIFY", mask := 0xFFFFFCFF#32, pattern := 0x00000002#32 } ∧
    0x00000302#32 &&& 0xFFFFFCFF#32 = 0x00000002#32 ∧ selField 0x00000302#32 = 3#2 ∧
    0x00000202#32 &&& 0xFFFFFCFF#32 = 0x00000002#32 ∧ decodeWord 0x00000202#32 = .ok (.justify 2#2) := by decide

/-- IllegalOpcodesFailByName: both ends of the two ranges. -/
theorem witness_IllegalOpcodesFailByName :
    (∀ w ∈ [0x00000000#32, 0x00000008#32, 0xFFFFFFFF#32],
      (running w Regs.reset Params.large).phase = .busy (captured w Regs.reset) ∧
      (w.toNat % 256 = 0 ∨ 8 ≤ w.toNat % 256)) ∧
    (∀ w ∈ [0x00000001#32, 0x00000007#32], 1 ≤ w.toNat % 256 ∧ w.toNat % 256 ≤ 7) :=
  ⟨fun w hw => ⟨rfl, by
    simp only [List.mem_cons, List.not_mem_nil, or_false] at hw
    rcases hw with rfl | rfl | rfl <;> decide⟩, fun w hw => by
    simp only [List.mem_cons, List.not_mem_nil, or_false] at hw
    rcases hw with rfl | rfl <;> decide⟩

/-- ReservedBitsFailByName: RSV bit 10, RSV bit 31, and SEL alone. -/
theorem witness_ReservedBitsFailByName : ∀ w ∈ [0x00000401#32, 0x80000007#32, 0x00000101#32, 0x00000702#32],
    (running w Regs.reset Params.large).phase = .busy (captured w Regs.reset) ∧ 1 ≤ w.toNat % 256 ∧ w.toNat % 256 ≤ 7 ∧
    (w.toNat / 1024 ≠ 0 ∨ (w.toNat % 256 ≠ 2 ∧ w.toNat % 256 ≠ 4 ∧ w.toNat / 256 % 4 ≠ 0)) :=
  fun w hw => ⟨rfl, by
    simp only [List.mem_cons, List.not_mem_nil, or_false] at hw
    rcases hw with rfl | rfl | rfl | rfl <;> decide⟩

/-- JustifyWithSelectorThreeFails. -/
theorem witness_JustifyWithSelectorThreeFails :
    (running 0x302#32 Regs.reset Params.large).phase = .busy (captured 0x302#32 Regs.reset) ∧
    (captured 0x302#32 Regs.reset).cmd = 0x00000302#32 := ⟨rfl, rfl⟩

/-- InitAppendsItsTwoBytes, JustifyAppendsItsPosition, RhdrAppendsItsHeader, EncoderCommandsAppendToTheStream: the frame
exactly fills OUT_CAP. -/
theorem witness_InitAppendsItsTwoBytes :
    (running 1#32 { Regs.reset with outLen := 6 } (outCapOf 8)).phase =
      .busy (captured 1#32 { Regs.reset with outLen := 6 }) ∧
    (running 1#32 { Regs.reset with outLen := 6 } (outCapOf 8)).regs.outLen + 2 ≤
      (running 1#32 { Regs.reset with outLen := 6 } (outCapOf 8)).params.outCap := ⟨rfl, by decide⟩

theorem witness_JustifyAppendsItsPosition :
    (running 0x202#32 { Regs.reset with outLen := 5 } (outCapOf 8)).phase =
      .busy (captured 0x202#32 { Regs.reset with outLen := 5 }) ∧ (2#2 : Sel) ≠ 3#2 ∧
    (running 0x202#32 { Regs.reset with outLen := 5 } (outCapOf 8)).regs.outLen + 3 ≤
      (running 0x202#32 { Regs.reset with outLen := 5 } (outCapOf 8)).params.outCap := ⟨rfl, by decide, by decide⟩

/-- FeedAppendsItsCount: n = 0 and n = 255. -/
theorem witness_FeedAppendsItsCount : ∀ n ∈ [0, 255],
    (running 3#32 (withFeed Regs.reset (BitVec.ofNat 32 n)) (outCapOf 8)).phase =
      .busy (captured 3#32 (withFeed Regs.reset (BitVec.ofNat 32 n))) ∧
    (captured 3#32 (withFeed Regs.reset (BitVec.ofNat 32 n))).feed.toInt = n ∧ n ≤ 255 ∧
    (running 3#32 (withFeed Regs.reset (BitVec.ofNat 32 n)) (outCapOf 8)).regs.outLen + 3 ≤
      (running 3#32 (withFeed Regs.reset (BitVec.ofNat 32 n)) (outCapOf 8)).params.outCap :=
  fun n hn => ⟨rfl, by
    simp only [List.mem_cons, List.not_mem_nil, or_false] at hn
    rcases hn with rfl | rfl <;> decide⟩

theorem witness_RhdrAppendsItsHeader :
    (running 0x304#32 Regs.reset (outCapOf 8)).phase = .busy (captured 0x304#32 Regs.reset) ∧
    (running 0x304#32 Regs.reset (outCapOf 8)).regs.outLen + 8 ≤ (running 0x304#32 Regs.reset (outCapOf 8)).params.outCap :=
  ⟨rfl, by decide⟩

/-- FeedOutOfRangeAlwaysFails: n = -1 and n = 256. -/
theorem witness_FeedOutOfRangeAlwaysFails : ∀ n ∈ [0xFFFFFFFF#32, 256#32],
    (running 3#32 (withFeed Regs.reset n) Params.large).phase = .busy (captured 3#32 (withFeed Regs.reset n)) ∧
    ((captured 3#32 (withFeed Regs.reset n)).feed.toInt < 0 ∨ 255 < (captured 3#32 (withFeed Regs.reset n)).feed.toInt) :=
  fun n hn => ⟨rfl, by
    simp only [List.mem_cons, List.not_mem_nil, or_false] at hn
    rcases hn with rfl | rfl <;> decide⟩

/-- EncoderCommandsThatDoNotFitFail: one byte short. -/
theorem witness_EncoderCommandsThatDoNotFitFail :
    (running 1#32 { Regs.reset with outLen := 7 } (outCapOf 8)).phase =
      .busy (captured 1#32 { Regs.reset with outLen := 7 }) ∧
    encoderFrame (captured 1#32 { Regs.reset with outLen := 7 }) .init = some [0x1B#8, 0x40#8] ∧
    (running 1#32 { Regs.reset with outLen := 7 } (outCapOf 8)).params.outCap < 7 + [0x1B#8, 0x40#8].length :=
  ⟨rfl, rfl, by decide⟩

theorem witness_EncoderCommandsAppendToTheStream :
    (running 3#32 Regs.reset (outCapOf 8)).phase = .busy (captured 3#32 Regs.reset) ∧
    encoderFrame (captured 3#32 Regs.reset) .feed = some [0x1B#8, 0x64#8, 0x04#8] ∧
    0 + [0x1B#8, 0x64#8, 0x04#8].length ≤ (running 3#32 Regs.reset (outCapOf 8)).params.outCap := by
  refine ⟨rfl, by decide, by decide⟩

/-- EncoderCommandsFrame: a command that appends, one that does not fit, one with an illegal operand. -/
theorem witness_EncoderCommandsFrame :
    (∃ t, exec .init (running 1#32 Regs.reset Params.large) = .next t) ∧
    (∃ t, exec (.rhdr 0#2) (running 4#32 { Regs.reset with outLen := 1 } (outCapOf 8)) = .next t ∧ t.regs.err = true) ∧
    (encoderFrame (captured 3#32 (withFeed Regs.reset 256#32)) .feed = none ∧
      ∃ t, exec .feed (running 3#32 (withFeed Regs.reset 256#32) Params.large) = .next t) :=
  ⟨⟨_, rfl⟩, ⟨_, rfl, rfl⟩, by decide, ⟨_, rfl⟩⟩

theorem witness_TargetHeightIsTheExactFloor : 0 < 7 ∧ 7 < 65536 ∧ 3 < 65536 ∧ targetHeight 7 3 = 164 := by decide

theorem witness_BilinearIntegerFormIsTheRationalForm : 0 < 768 ∧ 0 < 2 ∧ 0 < targetHeight 768 2 := by decide

/-- HardwareKernelIsLawful: the dimensions of L2-T8. -/
theorem witness_HardwareKernelIsLawful : 0 < 768 ∧ 0 < 2 ∧ 0 < targetHeight 768 2 := by decide

/-- XformWritesTheThresholdedBitmap: a source whose bitmap has 384 rows. -/
theorem witness_XformWritesTheThresholdedBitmap :
    (running 5#32 (dims 1#16 1#16) Params.large).phase = .busy (captured 5#32 (dims 1#16 1#16)) ∧
    SourceReady (running 5#32 (dims 1#16 1#16) Params.large) (captured 5#32 (dims 1#16 1#16)).w.toNat
      (captured 5#32 (dims 1#16 1#16)).h.toNat ∧ targetHeight 1 1 = 384 :=
  ⟨rfl, ready_one rfl rfl (by decide) (by decide), by decide⟩

/-- XformRejectsDimensionsBeforeReading: each clause. -/
theorem witness_XformRejectsDimensionsBeforeReading :
    (captured 5#32 (dims 0#16 5#16)).w = 0#16 ∧ (captured 5#32 (dims 5#16 0#16)).h = 0#16 ∧
    (captured 5#32 (dims 1#16 65535#16)).w ≠ 0#16 ∧ (captured 5#32 (dims 1#16 65535#16)).h ≠ 0#16 ∧
    (running 5#32 (dims 1#16 65535#16) { Params.large with bmMaxLines := 25165439 }).params.bmMaxLines <
      (captured 5#32 (dims 1#16 65535#16)).h.toNat * 384 / (captured 5#32 (dims 1#16 65535#16)).w.toNat := by decide

/-- XformReportsTheLowestFailingTap: index 0 fails, either way. -/
theorem witness_XformReportsTheLowestFailingTap : ∀ a ∈ [SrcAnswer.unreadable, SrcAnswer.decode],
    let s := { running 5#32 (dims 1#16 1#16) Params.large with port := [(0, a)] }
    s.phase = .busy (captured 5#32 (dims 1#16 1#16)) ∧ (captured 5#32 (dims 1#16 1#16)).w ≠ 0#16 ∧
    (captured 5#32 (dims 1#16 1#16)).h ≠ 0#16 ∧ targetHeight 1 1 ≤ s.params.bmMaxLines ∧
    0 ∈ allTaps resample 1 1 (targetHeight 1 1) ∧
    (∀ j ∈ allTaps resample 1 1 (targetHeight 1 1), j < 0 → ∃ b, srcRead s j = .ok b) ∧ srcRead s 0 = a := by
  intro a ha s
  refine ⟨rfl, by decide, by decide, show 384 ≤ 25165440 by decide, tap_zero, fun j _ h => absurd h (by omega), ?_⟩
  simp only [srcRead, s, lookup]
  rfl

/-- AscendingReadsGiveTheSameError. -/
theorem witness_AscendingReadsGiveTheSameError : [0].Pairwise (· < ·) ∧
    ∀ i, i ∈ [0] ↔ ∃ x y, x < 384 ∧ y < 1 ∧ i ∈ nearest.taps 1 1 1 x y := by
  refine ⟨by simp, fun i => ⟨fun h => ⟨0, 0, by decide, by decide, ?_⟩, ?_⟩⟩
  · simpa [nearest] using h
  · rintro ⟨x, y, hx, hy, h⟩
    simp only [nearest, List.mem_cons, List.not_mem_nil, or_false] at h
    simp; omega

theorem witness_XformOfAZeroHeightSucceeds :
    (running 5#32 (dims 65535#16 170#16) Params.large).phase = .busy (captured 5#32 (dims 65535#16 170#16)) ∧
    (captured 5#32 (dims 65535#16 170#16)).w ≠ 0#16 ∧ (captured 5#32 (dims 65535#16 170#16)).h ≠ 0#16 ∧
    (captured 5#32 (dims 65535#16 170#16)).h.toNat * 384 < (captured 5#32 (dims 65535#16 170#16)).w.toNat :=
  ⟨rfl, by decide⟩

/-- SolidSourcesGiveSolidBitmaps: both sides of the threshold, under a kernel that is not the hardware's, and on the machine. -/
theorem witness_SolidSourcesGiveSolidBitmaps :
    (Kernel.Lawful nearest ∧ 0 < 2 ∧ 0 < 3 ∧ ∀ i, i < 2 * 3 → (fun _ : Nat => 128#8) i = 128#8) ∧
    ∀ c ∈ [127#8, 128#8],
      let s := { running 5#32 (dims 1#16 1#16) Params.large with src := { epoch := 0, cells := [(0, c)] } }
      s.phase = .busy (captured 5#32 (dims 1#16 1#16)) ∧ SourceReady s 1 1 ∧ ∀ i, i < 1 * 1 → srcRead s i = .ok c := by
  refine ⟨⟨nearest_lawful, by decide, by decide, fun _ _ => rfl⟩, fun c _ =>
    ⟨rfl, ready_one rfl rfl (show 1 ≤ 4294836225 by decide) (show 384 ≤ 25165440 by decide), ?_⟩⟩
  intro i hi
  obtain rfl : i = 0 := by omega
  rfl

theorem witness_FullWidthBitsDoNotDependOnTheKernel : Kernel.Lawful nearest ∧ 0 < 1 ∧ 383 < 384 ∧ 0 < 1 :=
  ⟨nearest_lawful, by decide⟩

/-- XformFrame: a transform that succeeds and one that fails. -/
theorem witness_XformFrame :
    (∃ t, exec .xform (running 5#32 (dims 1#16 1#16) Params.large) = .next t ∧ t.regs.bmValid = true) ∧
    ∃ t, exec .xform (running 5#32 (dims 0#16 1#16) Params.large) = .next t :=
  ⟨⟨_, exec_xform_ok (running_busy _ _ _) (transform_of_ready (W := 1) (H := 1) (ready_one rfl rfl (by decide) (by decide))),
    rfl⟩, ⟨_, rfl⟩⟩

/-- GEN on the 1 by 1 source has what it needs, and its stream exactly fills OUT_CAP. -/
theorem genReady_one : GenReady (running 6#32 (withFeed (dims 1#16 1#16) 255#32) (outCapOf 18456))
    (captured 6#32 (withFeed (dims 1#16 1#16) 255#32)) where
  source := ready_one rfl rfl (by decide) (by decide)
  feed := by decide
  capacity := by decide

theorem witness_GenBuildsTheWholeStream :
    (running 6#32 (withFeed (dims 1#16 1#16) 255#32) (outCapOf 18456)).phase =
      .busy (captured 6#32 (withFeed (dims 1#16 1#16) 255#32)) ∧
    GenReady (running 6#32 (withFeed (dims 1#16 1#16) 255#32) (outCapOf 18456))
      (captured 6#32 (withFeed (dims 1#16 1#16) 255#32)) := ⟨rfl, genReady_one⟩

/-- GenStreamReadsBackAsItsGrammar, BlocksDeclareTheLinesOfTheBitmap: rows of 48 bytes, and a multiple of 255. -/
theorem witness_GenStreamReadsBackAsItsGrammar : (∀ r, ((fun _ : Nat => List.replicate 48 0xFF#8) r).length = 48) ∧
    510 + 3 ≤ 513 := ⟨fun _ => rfl, by decide⟩

theorem witness_BlocksDeclareTheLinesOfTheBitmap : (∀ r, ((fun _ : Nat => List.replicate 48 0xFF#8) r).length = 48) ∧
    510 % 255 = 0 := ⟨fun _ => rfl, by decide⟩

/-- GenBlockOffsets: there are two blocks, 0 and 1. -/
theorem witness_GenBlockOffsets :
    GenReady (running 6#32 (withFeed (dims 1#16 1#16) 255#32) (outCapOf 18456))
      (captured 6#32 (withFeed (dims 1#16 1#16) 255#32)) ∧ 1 < blockCount (targetHeight 1 1) := ⟨genReady_one, by decide⟩

theorem witness_GenOfAZeroHeightEmitsEightBytes :
    (running 6#32 (withFeed (dims 385#16 1#16) 0#32) (outCapOf 8)).phase =
      .busy (captured 6#32 (withFeed (dims 385#16 1#16) 0#32)) ∧
    (captured 6#32 (withFeed (dims 385#16 1#16) 0#32)).w ≠ 0#16 ∧
    (captured 6#32 (withFeed (dims 385#16 1#16) 0#32)).h ≠ 0#16 ∧
    (captured 6#32 (withFeed (dims 385#16 1#16) 0#32)).h.toNat * 384 <
      (captured 6#32 (withFeed (dims 385#16 1#16) 0#32)).w.toNat ∧
    8 ≤ (outCapOf 8).outCap ∧ 0 ≤ (captured 6#32 (withFeed (dims 385#16 1#16) 0#32)).genFeed ∧
    (captured 6#32 (withFeed (dims 385#16 1#16) 0#32)).genFeed ≤ 255 := ⟨rfl, by decide⟩

/-- GenTakesTheDefaultFeed: FEED = 999 with the default in force (L2-G11). -/
theorem witness_GenTakesTheDefaultFeed :
    (captured 6#32 { dims 0#16 0#16 with feed := 999#32 }).feedDefault = true ∧
    (running 6#32 { dims 0#16 0#16 with feed := 999#32 } Params.large).regs.errInfo.detail ≠ 1#8 ∧
    ∃ t, exec .gen (running 6#32 { dims 0#16 0#16 with feed := 999#32 } Params.large) = .next t :=
  ⟨rfl, by decide, ⟨_, rfl⟩⟩

theorem witness_GenReportsTheTransformError :
    (running 6#32 (withFeed (dims 0#16 2#16) 0xFFFFFFFF#32) Params.large).regs.err = false ∧
    ∃ x, exec .xform (running 6#32 (withFeed (dims 0#16 2#16) 0xFFFFFFFF#32) Params.large) = .next x ∧ x.regs.err = true :=
  ⟨rfl, _, rfl, rfl⟩

/-- GenAssemblyErrorsInOrder: the body one byte short; the feed out of range with the body exactly fitting; the feed frame
one byte short. -/
theorem witness_GenAssemblyErrorsInOrder :
    (∀ n ∈ [18452, 18453, 18455], SourceReady (running 6#32 (withFeed (dims 1#16 1#16) 300#32) (outCapOf n)) 1 1) ∧
    (outCapOf 18452).outCap < 5 + 8 * blockCount (targetHeight 1 1) + 48 * targetHeight 1 1 ∧
    (5 + 8 * blockCount (targetHeight 1 1) + 48 * targetHeight 1 1 ≤ (outCapOf 18453).outCap ∧
      255 < (captured 6#32 (withFeed (dims 1#16 1#16) 300#32)).genFeed) ∧
    (5 + 8 * blockCount (targetHeight 1 1) + 48 * targetHeight 1 1 ≤ (outCapOf 18455).outCap ∧
      0 ≤ (captured 6#32 (withFeed (dims 1#16 1#16) 255#32)).genFeed ∧
      (captured 6#32 (withFeed (dims 1#16 1#16) 255#32)).genFeed ≤ 255 ∧
      (outCapOf 18455).outCap < 8 + 8 * blockCount (targetHeight 1 1) + 48 * targetHeight 1 1) :=
  ⟨fun n hn => ready_one rfl rfl (show 1 ≤ 4294836225 by decide) (show 384 ≤ 25165440 by decide), by decide⟩

/-- GenDependsOnItsOperandsAndSourceAlone: two engines that differ in OUT_LEN, HDR_WB and what OUT and BM hold. -/
theorem witness_GenDependsOnItsOperandsAndSourceAlone :
    let s1 := running 6#32 (dims 1#16 1#16) Params.large
    let s2 := { running 6#32 { dims 1#16 1#16 with outLen := 1, hdrWb := 7#16 } Params.large with
      out := { epoch := 3, cells := [(0, 9#8)] }, bm := { epoch := 2, cells := [] } }
    s1.phase = .busy (captured 6#32 (dims 1#16 1#16)) ∧
    s2.phase = .busy (captured 6#32 { dims 1#16 1#16 with outLen := 1, hdrWb := 7#16 }) ∧
    s1.params = s2.params ∧ s1.src = s2.src ∧ s1.port = s2.port ∧ s1.raced = s2.raced ∧
    s1.regs.err = false ∧ s2.regs.err = false ∧ s1.regs.done = false ∧ s2.regs.done = false ∧
    (∃ t, exec .gen s1 = .next t) ∧ ∃ t, exec .gen s2 = .next t := by
  refine ⟨rfl, rfl, rfl, rfl, rfl, rfl, rfl, rfl, rfl, rfl, ?_, ?_⟩
  · rcases exec_gen_cases (s := running 6#32 (dims 1#16 1#16) Params.large) rfl with
      ⟨_, _, h⟩ | ⟨_, _, _, _, _, h⟩ | ⟨_, _, _, _, _, h⟩ <;> exact ⟨_, h⟩
  · rcases exec_gen_cases (s := { running 6#32 { dims 1#16 1#16 with outLen := 1, hdrWb := 7#16 } Params.large with
      out := { epoch := 3, cells := [(0, 9#8)] }, bm := { epoch := 2, cells := [] } }) rfl with
      ⟨_, _, h⟩ | ⟨_, _, _, _, _, h⟩ | ⟨_, _, _, _, _, h⟩ <;> exact ⟨_, h⟩

/-- GenFrame: a GEN that succeeds (BM_VALID = 1, ERR = 0). -/
theorem witness_GenFrame :
    ∃ t, exec .gen (running 6#32 (dims 385#16 1#16) Params.large) = .next t ∧ t.regs.bmValid = true ∧ t.regs.err = false := by
  have hr : SourceReady (running 6#32 (dims 385#16 1#16) Params.large) 385 1 :=
    ⟨by decide, by decide, by decide, fun x y i _ hy => absurd hy (by rw [show targetHeight 385 1 = 0 by decide]; omega)⟩
  have ha := assemble_eq 1208730632 ({ epoch := 0, cells := [] } : Memory) { epoch := 0, cells := [] } 0 4
  rw [if_neg (by decide), if_neg (by decide), if_neg (by decide)] at ha
  exact ⟨_, exec_gen_ok (running_busy _ _ _) (transform_of_ready hr) ha, rfl, rfl⟩

theorem witness_ClearEmptiesTheStream :
    (running 7#32 { Regs.reset with outLen := 5 } Params.large).phase =
      .busy (captured 7#32 { Regs.reset with outLen := 5 }) := rfl

theorem witness_CommandWritesAreAcceptedOrRejected : State.reset.busy = false ∧ State.reset.regs.err = false ∧
    (running 1#32 Regs.reset Params.large).busy = true ∧ (fresh { Regs.reset with err := true } Params.large).regs.err = true :=
  ⟨rfl, rfl, rfl, rfl⟩

theorem witness_OperandWritesDoNotReachTheRunningCommand :
    (running 5#32 (dims 0#16 1#16) Params.large).phase = .busy (captured 5#32 (dims 0#16 1#16)) ∧
    (0x7FFFFFFF#32).getLsbD 31 = false ∧ ∃ t, exec .xform (running 5#32 (dims 0#16 1#16) Params.large) = .next t :=
  ⟨rfl, by decide, ⟨_, rfl⟩⟩

theorem witness_EveryAcceptedCommandCompletes :
    (running 0xFF#32 Regs.reset Params.large).phase = .busy (captured 0xFF#32 Regs.reset) := rfl

/-- CommandsRaiseOnlyTheirOwnErrors and FailureEffects: a failing Decode, encoder command, XFORM and GEN. -/
theorem witness_CommandsRaiseOnlyTheirOwnErrors :
    ∀ s ∈ [running 0xFF#32 Regs.reset Params.large, running 0x302#32 Regs.reset Params.large,
      running 3#32 (withFeed Regs.reset 256#32) Params.large, running 5#32 (dims 0#16 1#16) Params.large,
      running 6#32 (dims 0#16 1#16) Params.large],
      s.regs.err = false ∧ ∃ t, engineTurn s = .next t ∧ t.regs.err = true := by
  intro s hs
  simp only [List.mem_cons, List.not_mem_nil, or_false] at hs
  rcases hs with rfl | rfl | rfl | rfl | rfl <;> exact ⟨rfl, _, rfl, rfl⟩

/-- FailureEffects: a GEN that fails after its transform step has succeeded. -/
theorem witness_FailureEffects :
    let s := running 6#32 (withFeed (dims 1#16 1#16) 300#32) Params.large
    s.phase = .busy (captured 6#32 (withFeed (dims 1#16 1#16) 300#32)) ∧ s.regs.err = false ∧ SourceReady s 1 1 ∧
    ∃ t, engineTurn s = .next t ∧ t.regs.err = true := by
  refine ⟨rfl, rfl, ready_one rfl rfl (by decide) (by decide), ?_⟩
  have hr : SourceReady (running 6#32 (withFeed (dims 1#16 1#16) 300#32) Params.large) 1 1 :=
    ready_one rfl rfl (by decide) (by decide)
  rcases exec_gen_cases (s := running 6#32 (withFeed (dims 1#16 1#16) 300#32) Params.large) rfl with
    ⟨_, _, h⟩ | ⟨_, _, _, _, _, h⟩ | ⟨_, _, _, hf, _, h⟩
  · exact ⟨_, h, rfl⟩
  · exact ⟨_, h, rfl⟩
  · exact absurd hf (by decide)

theorem witness_ReturnFromAnErrorAcceptsTheNextCommand :
    (fresh { Regs.reset with err := true } Params.large).busy = false ∧
    (fresh { Regs.reset with err := true } Params.large).regs.err = true := ⟨rfl, rfl⟩

/-- InterruptLevel: each clause on a machine whose IRQ is asserted before; with DONE alone a write of 0x2 is enough (L2-C3). -/
theorem witness_InterruptLevel :
    irq (fresh { Regs.reset with irqEn := true, done := true } Params.large) = true ∧
    (0x00000002#32).getLsbD 1 = true ∧ (0x00000002#32).getLsbD 2 = false ∧
    (fresh { Regs.reset with irqEn := true, done := true } Params.large).regs.err = false ∧
    (0x00000001#32).getLsbD 31 = false ∧ (0x00000001#32).getLsbD 1 = false ∧
    (fresh { Regs.reset with irqEn := true, done := true } Params.large).busy = false ∧
    (fresh { Regs.reset with irqEn := true, done := true } Params.large).regs.err = false ∧
    (0x80000000#32).getLsbD 31 = true := by decide

theorem witness_SoftResetRestoresTheResetState : (0x80000002#32).getLsbD 31 = true := by decide

theorem witness_ReadOnlyRegistersIgnoreWrites : ∃ r : Reg, r = .id ∨ r = .errInfo := ⟨.id, .inl rfl⟩

theorem witness_OperandRegistersReadBackTheirFields : (0x7FFFFFFF#32).getLsbD 31 = false ∧ Reg.ctrl ≠ Reg.feed := by decide

/-- SourceWritesReadBackLittleEndian: the first index past SRC and the last one in it, listed by the port and not; a write to the
last four bytes, which the port does not list. -/
theorem witness_SourceWritesReadBackLittleEndian :
    State.reset.params.srcCap ≤ 4294836225 ∧ 4294836224 < State.reset.params.srcCap ∧
    lookup State.reset.raced 4294836224 = none ∧ lookup State.reset.port 4294836224 = none ∧
    lookup { State.reset with port := [(4294836224, .decode)] }.port 4294836224 = some .decode ∧
    (4 = 1 ∨ 4 = 2 ∨ 4 = 4) ∧ 4294836221 + 4 ≤ State.reset.params.srcCap ∧
    State.reset.busy = false ∧ State.reset.regs.err = false := by decide

/-- ResultSpacesReadTheirBytesAndIgnoreWrites: the last byte of OUT, the first four of BM; Idle and Busy. -/
theorem witness_ResultSpacesReadTheirBytesAndIgnoreWrites :
    State.reset.busy = false ∧ accessLegal State.reset.params .out 1208730631 1 ∧ accessLegal State.reset.params .bm 0 4 ∧
    (running 5#32 (dims 1#16 1#16) Params.large).busy = true ∧
    accessLegal (running 5#32 (dims 1#16 1#16) Params.large).params .out 1208730631 1 :=
  ⟨rfl, ⟨.inl rfl, by decide⟩, ⟨.inr (.inr rfl), by decide⟩, rfl, ⟨.inl rfl, by decide⟩⟩

theorem witness_SourceWritesWhileBusyRace :
    (running 5#32 (dims 1#16 1#16) Params.large).busy = true ∧ (2 = 1 ∨ 2 = 2 ∨ 2 = 4) ∧
    0 + 2 ≤ (running 5#32 (dims 1#16 1#16) Params.large).params.srcCap := ⟨rfl, by decide, by decide⟩

theorem witness_RegisterReadsWhileBusy : (running 5#32 (dims 1#16 1#16) Params.large).busy = true ∧ Reg.feed ≠ .status ∧
    Reg.feed ≠ .bmH ∧ Reg.feed ≠ .outLen ∧ Reg.feed ≠ .blocks := by decide

/-- StepRunsTheDecodedCommand: with the engine's turn scheduled, and with an empty schedule. -/
theorem witness_StepRunsTheDecodedCommand :
    nextTurn (State.reset.withFetchWord 32 1) = (.engine, { State.reset.withFetchWord 32 1 with sched := [] }) ∧
    (State.reset.withFetchWord 32 1).phase = .busy (captured 1#32 Regs.reset) ∧
    decodeWord (captured 1#32 Regs.reset).cmd = .ok .init ∧
    nextTurn (running 1#32 Regs.reset Params.large) = (.engine, running 1#32 Regs.reset Params.large) :=
  ⟨rfl, rfl, by decide, rfl⟩

/-- The fresh machine with a host program at statement `pc` and some names bound. -/
def hosted (program : List HostStmt) (pc : Nat) (names : List (Nat × Word)) : State :=
  { State.reset with host := { program := program, pc := pc, names := names } }

/-- HostStatementsDoWhatTheyStandFor: the end of a program; each access; both ways of a BIT, whose label stands in front of
no statement. The host's turn is next in each. -/
theorem witness_HostStatementsDoWhatTheyStandFor :
    (∀ program pc names, nextTurn (hosted program pc names) = (.host, hosted program pc names)) ∧
    (hosted [.halt] 1 []).host.program[1]? = none ∧
    (∃ r, hostRead (hosted [.read .reg 0x2C 4 1] 0 []) .reg 0x2C 4 = .ok r) ∧
    (∃ t, hostWrite (hosted [.write .src 0 1 7#32] 0 []) .src 0 1 7#32 = .ok t) ∧
    (hosted [.busRead 0x2C 4 1] 0 []).params.locate 0x2C = some (.reg, 0x2C) ∧
    lookup (hosted [.bit 1 0 5, .label 5] 0 [(1, 1#32)]).host.names 1 = some 1#32 ∧ (1#32).getLsbD 0 = true ∧
    (1#32).getLsbD 1 = false ∧ (hosted [.bit 1 0 5, .label 5] 0 [(1, 1#32)]).host.program[1]? = some (.label 5) ∧
    ∀ i, i < 1 → (hosted [.bit 1 0 5, .label 5] 0 [(1, 1#32)]).host.program[i]? ≠ some (.label 5) :=
  ⟨fun _ _ _ => rfl, rfl, ⟨_, hostRead_reg _ .outLen⟩, ⟨_, rfl⟩, by decide, rfl, by decide, by decide, rfl,
    fun i hi => by obtain rfl : i = 0 := by omega
                   decide⟩

/-- EveryStepKeepsTheInvariant: a machine with a program, a specified source byte, and a running command whose step takes
place. -/
theorem witness_EveryStepKeepsTheInvariant :
    let s := { State.reset.withFetchWord 32 1 with
      src := { epoch := 0, cells := [(0, 7#8)] }, host := { program := [.wait, .halt], pc := 0, names := [(0, 1#32)] } }
    Inv s ∧ ∃ t, step s = .next t := by
  refine ⟨?_, _, rfl⟩
  constructor
  case busy_flags => intro sn h; cases h; exact ⟨rfl, rfl, rfl⟩
  case idle_raced => intro h; cases h
  case info_legal => intro h; cases h
  case info_clear => intro _; rfl
  case bmH_invalid => intro _; rfl
  case bm_complete => intro a h; exact absurd h (Nat.not_lt_zero a)
  case out_complete => intro a h; exact absurd h (Nat.not_lt_zero a)
  all_goals decide

end Sys2Proof.Tests
end

section
/-! PROOFS. The registers, the operand writes and the engine's turn (10_state.md): what a register write does, that a command
does not see an operand written after its acceptance, and the statements of this family. -/
namespace Sys2Proof.Machine

/-! ### Operand writes (R35 to R40) -/

/-- The register writes that set an operand: every write to SRC_W, SRC_H, FEED, HDR_WB and HDR_LINES, and a CTRL write that is
no soft reset (R35). -/
def IsOperandWrite (v : Word) (r : Reg) : Prop :=
  r = .srcW ∨ r = .srcH ∨ r = .feed ∨ r = .hdrWb ∨ r = .hdrLines ∨ (r = .ctrl ∧ v.getLsbD 31 = false)

/-- An operand write field by field, so that the fields no operand write reaches are visibly those of `s`; the lemma
`regWrite_operand` ties it to the model's register write. -/
def State.writeOperand (v : Word) (r : Reg) (s : State) : State :=
  { s with regs := { s.regs with
      feedDefault := if r = .ctrl then v.getLsbD 0 else s.regs.feedDefault
      irqEn := if r = .ctrl then v.getLsbD 1 else s.regs.irqEn
      srcW := if r = .srcW then v.setWidth 16 else s.regs.srcW
      srcH := if r = .srcH then v.setWidth 16 else s.regs.srcH
      feed := if r = .feed then v else s.regs.feed
      hdrWb := if r = .hdrWb then v.setWidth 16 else s.regs.hdrWb
      hdrLines := if r = .hdrLines then v.setWidth 16 else s.regs.hdrLines } }

theorem regWrite_operand {v : Word} {r : Reg} (h : IsOperandWrite v r) (s : State) :
    regWrite v s r = s.writeOperand v r := by
  rcases h with rfl | rfl | rfl | rfl | rfl | ⟨rfl, hv⟩
  · rfl
  · rfl
  · rfl
  · rfl
  · rfl
  · exact writeCtrl_fields s hv

/-- R32, R36, R37, R39, R40: a 16-bit field reads back zero-extended. -/
theorem setWidth_16_setWidth_32 (v : Word) : (v.setWidth 16).setWidth 32 = v &&& 0x0000FFFF#32 := by
  apply BitVec.eq_of_toNat_eq
  have hand : v.toNat &&& 65535 = v.toNat % 65536 := Nat.and_two_pow_sub_one_eq_mod v.toNat 16
  have hlt : v.toNat % 65536 < 4294967296 := by omega
  simp [hand, hlt]

/-- R33, R34: the fields of the CTRL word. -/
theorem ctrlWord_low (r : Regs) : (ctrlWord r).getLsbD 0 = r.feedDefault ∧ (ctrlWord r).getLsbD 1 = r.irqEn := by
  have bits : ∀ i f : Bool, ((BitVec.ofBool i ++ BitVec.ofBool f).setWidth 32).getLsbD 0 = f ∧
      ((BitVec.ofBool i ++ BitVec.ofBool f).setWidth 32).getLsbD 1 = i := by decide
  exact bits r.irqEn r.feedDefault

/-- R32: the other bits of the CTRL word are RES0. -/
theorem ctrlWord_high (r : Regs) {k : Nat} (h : 2 ≤ k) : (ctrlWord r).getLsbD k = false := by
  simp only [ctrlWord, BitVec.getLsbD_setWidth, BitVec.getLsbD_of_ge _ k h, Bool.and_false]

/-- R32, R35: CTRL reads back its two fields. -/
theorem ctrlWord_writeCtrlFields (v : Word) (r : Regs) : ctrlWord (writeCtrlFields v r) = v &&& 0x00000003#32 := by
  apply BitVec.eq_of_getLsbD_eq
  intro k hk
  obtain rfl | rfl | h2 : k = 0 ∨ k = 1 ∨ 2 ≤ k := by omega
  · rw [(ctrlWord_low _).1]; simp [writeCtrlFields]
  · rw [(ctrlWord_low _).2]; simp [writeCtrlFields]
  · have hpow : 3 < 2 ^ k := lt_of_lt_of_le (by decide) (Nat.pow_le_pow_right (by decide) h2)
    have hmask : (3#32).getLsbD k = false := by simp [BitVec.getLsbD_ofNat, Nat.testBit_lt_two_pow hpow]
    rw [BitVec.getLsbD_and, hmask, ctrlWord_high _ h2, Bool.and_false]

/-- An operand write is seen in no other register. -/
theorem regValue_writeOperand_of_ne {r r' : Reg} (h : r ≠ r') (v : Word) (s : State) :
    regValue (s.writeOperand v r) r' = regValue s r' := by
  cases r' with
  | ctrl => simp [regValue, ctrlWord, State.writeOperand, h]
  | srcW | srcH | feed | hdrWb | hdrLines => simp [regValue, State.writeOperand, h]
  | id | status | cmd | errInfo | bmH | outLen | blocks | rsv34 | rsv38 | rsv3C => rfl

/-! ### A running command and an operand write (R46) -/

section
/-! No part of a command reads or changes an operand register: each operation of a command commutes with the operand write. -/
variable (v : Word) (r : Reg) (s : State)

theorem completeOk_writeOperand : completeOk (s.writeOperand v r) = (completeOk s).writeOperand v r := rfl
theorem completeError_writeOperand (sn : Snapshot) (d : ErrDetail) :
    completeError sn d (s.writeOperand v r) = (completeError sn d s).writeOperand v r := rfl
theorem transform_writeOperand (K : Kernel) (W H : Nat) :
    transform K (s.writeOperand v r) W H = transform K s W H := rfl
theorem transformDone_writeOperand (T : Nat) (bytes : List Byte) :
    transformDone T bytes (s.writeOperand v r) = (transformDone T bytes s).writeOperand v r := rfl
theorem transformFailed_writeOperand :
    transformFailed (s.writeOperand v r) = (transformFailed s).writeOperand v r := rfl
theorem genDone_writeOperand (o : OutBuf) (blocks : Nat) :
    genDone o blocks (s.writeOperand v r) = (genDone o blocks s).writeOperand v r := rfl
theorem genFailed_writeOperand : genFailed (s.writeOperand v r) = (genFailed s).writeOperand v r := rfl

theorem appendFrame_writeOperand (f : List Byte) (sn : Snapshot) :
    appendFrame f sn (s.writeOperand v r) = (appendFrame f sn s).writeOperand v r := by
  rcases appendFrame_cases f sn s with ⟨h, e⟩ | ⟨h, e⟩
  · rw [e]; exact appendFrame_fits h
  · rw [e]; exact appendFrame_full h

end

/-- R46, R353: a command takes its operands from the snapshot, so an operand write commutes with running it. -/
theorem exec_writeOperand {s t : State} {sn : Snapshot} {i : Instr} (h : s.phase = .busy sn) (ht : exec i s = .next t)
    (v : Word) (r : Reg) : exec i (s.writeOperand v r) = .next (t.writeOperand v r) := by
  have h' : (s.writeOperand v r).phase = .busy sn := h
  cases i with
  | init =>
    rw [exec_init h] at ht; cases ht
    rw [exec_init h', appendFrame_writeOperand]
  | justify pos =>
    rw [exec_justify h] at ht
    rw [exec_justify h']
    by_cases hp : pos = 3#2
    · rw [if_pos hp] at ht ⊢; cases ht
      rw [completeError_writeOperand]
    · rw [if_neg hp] at ht ⊢; cases ht
      rw [appendFrame_writeOperand]
  | feed =>
    rw [exec_feed h] at ht
    rw [exec_feed h']
    by_cases hp : feedInRange sn.feedLines
    · rw [if_pos hp] at ht ⊢; cases ht
      rw [appendFrame_writeOperand]
    · rw [if_neg hp] at ht ⊢; cases ht
      rw [completeError_writeOperand]
  | rhdr mode =>
    rw [exec_rhdr h] at ht; cases ht
    rw [exec_rhdr h', appendFrame_writeOperand]
  | xform =>
    have htr := transform_writeOperand v r s resample sn.width sn.height
    rcases exec_xform_cases h with ⟨d, hx, e⟩ | ⟨T, bytes, hx, e⟩
    · rw [e] at ht; cases ht
      rw [exec_xform_error h' (htr.trans hx), transformFailed_writeOperand, completeError_writeOperand]
    · rw [e] at ht; cases ht
      rw [exec_xform_ok h' (htr.trans hx), transformDone_writeOperand, completeOk_writeOperand]
  | gen =>
    have htr := transform_writeOperand v r s resample sn.width sn.height
    cases hx : transform resample s sn.width sn.height with
    | error d =>
      rw [exec_gen_transform_error h hx] at ht; cases ht
      rw [exec_gen_transform_error h' (htr.trans hx), transformFailed_writeOperand, genFailed_writeOperand,
        completeError_writeOperand]
    | ok res =>
      obtain ⟨T, bytes⟩ := res
      cases ha : assemble s.params.outCap (s.bm.writeRun 0 bytes) T sn.genFeed { mem := s.out, len := 0 } with
      | error d =>
        rw [exec_gen_assemble_error h hx ha] at ht; cases ht
        rw [exec_gen_assemble_error h' (htr.trans hx) ha, transformDone_writeOperand, genFailed_writeOperand,
          completeError_writeOperand]
      | ok res =>
        obtain ⟨o, blocks⟩ := res
        rw [exec_gen_ok h hx ha] at ht; cases ht
        rw [exec_gen_ok h' (htr.trans hx) ha, transformDone_writeOperand, genDone_writeOperand,
          completeOk_writeOperand]
  | clear =>
    rw [exec_clear h] at ht; cases ht
    exact exec_clear h'

/-! ### STATUS writes (R56) -/

/-- A STATUS write clears the W1C bits it sets, and no other bit of STATUS. -/
theorem statusWord_writeStatus_getLsbD (v : Word) (s : State) (k : Nat) :
    (statusWord { s with regs := writeStatus v s.regs }).getLsbD k =
      ((statusWord s).getLsbD k && !(v.getLsbD k && (k == 1 || k == 2 || k == 4))) := by
  have hbusy : State.busy { s with regs := writeStatus v s.regs } = s.busy := rfl
  have hbm : (writeStatus v s.regs).bmValid = s.regs.bmValid := by rw [writeStatus_frame]
  simp only [statusWord, statusBits_getLsbD, writeStatus_done, writeStatus_err, writeStatus_reject, hbusy, hbm]
  split_ifs with h0 h1 h2 h3 h4 <;> simp [*]

/-! ### Reads and writes of constant registers (R31, R48 to R53) -/

/-- The registers that ignore a host write. -/
theorem regWrite_readOnly {r : Reg}
    (h : r = .id ∨ r = .errInfo ∨ r = .bmH ∨ r = .outLen ∨ r = .blocks ∨ r = .rsv34 ∨ r = .rsv38 ∨ r = .rsv3C)
    (v : Word) (s : State) : regWrite v s r = s := by
  rcases h with rfl | rfl | rfl | rfl | rfl | rfl | rfl | rfl <;> rfl

/-- R92: a host read of a register that is exact in every phase. -/
theorem hostRead_exact (s : State) {r : Reg} (h1 : r ≠ .status) (h2 : r ≠ .bmH) (h3 : r ≠ .outLen) (h4 : r ≠ .blocks) :
    ∃ t, hostRead s .reg r.offset 4 = .ok (regValue s r, t) :=
  ⟨(regRead s r).2, by rw [hostRead_reg, ← regRead_exact s h1 h2 h3 h4]⟩

/-! ### The schedule -/

/-- Whoever moves, the turn is taken off the schedule and nothing else changes. -/
theorem nextTurn_snd (s : State) : (nextTurn s).2 = { s with sched := s.sched.tail } := by
  obtain ⟨params, regs, phase, src, bm, out, port, raced, host, sched, free⟩ := s
  cases sched with
  | nil => cases phase <;> rfl
  | cons t rest => rfl

/-! ### The statements -/

/-- Settles O12: the frame is appended by the shared append, which fails when it does not fit. -/
theorem encoderCommandsThatDoNotFitFail : Obligations.EncoderCommandsThatDoNotFitFail := by
  intro s sn i frame h hf hcap
  rw [exec_encoder h hf, appendFrame_full hcap]
  rfl

/-- Settles O38: every command commutes with the operand write. -/
theorem operandWritesDoNotReachTheRunningCommand : Obligations.OperandWritesDoNotReachTheRunningCommand := by
  intro s t sn i r v h hr ht
  rw [regWrite_operand hr, regWrite_operand hr]
  exact exec_writeOperand h ht v r

/-- Settles O42, from the W1C rule bit by bit and the four fields a STATUS write can change. -/
theorem statusWritesClearWhatTheySet : Obligations.StatusWritesClearWhatTheySet := by
  intro s v
  refine ⟨_, hostWrite_reg s .status v, fun k _ => statusWord_writeStatus_getLsbD v s k, writeStatus_errInfo v s.regs, ?_⟩
  simp only [regWrite]
  rw [writeStatus_frame]

/-- Settles O50: each write is its fields read back, and the other registers by the frame of an operand write. -/
theorem operandRegistersReadBackTheirFields : Obligations.OperandRegistersReadBackTheirFields := by
  intro s v
  refine ⟨setWidth_16_setWidth_32 v, setWidth_16_setWidth_32 v, setWidth_16_setWidth_32 v, setWidth_16_setWidth_32 v,
    rfl, fun hv => ?_, fun r r' hr hne => ?_⟩
  · simp only [regWrite, writeCtrl_fields s hv, regValue, ctrlWord_writeCtrlFields]
  · have hop : IsOperandWrite v r := by unfold IsOperandWrite; tauto
    rw [regWrite_operand hop]
    exact ⟨regValue_writeOperand_of_ne hne.symm v s, rfl, rfl, rfl, rfl⟩

/-- Settles O49: ID and the reserved offsets are among the registers a read gives exactly in every phase. -/
theorem readOnlyRegistersIgnoreWrites : Obligations.ReadOnlyRegistersIgnoreWrites := by
  intro s v r hr
  refine ⟨?_, hostRead_exact s (r := .id) ?_ ?_ ?_ ?_, hostRead_exact s (r := .rsv34) ?_ ?_ ?_ ?_,
    hostRead_exact s (r := .rsv38) ?_ ?_ ?_ ?_, hostRead_exact s (r := .rsv3C) ?_ ?_ ?_ ?_⟩
  · rw [hostWrite_reg, regWrite_readOnly hr]
  all_goals decide

/-- Settles O56: the turn taken off leaves the phase, so the engine decodes the accepted word. -/
theorem stepRunsTheDecodedCommand : Obligations.StepRunsTheDecodedCommand := by
  intro s s' sn i hturn hbusy hdec
  have hs' : s' = { s with sched := s.sched.tail } := by rw [← nextTurn_snd, hturn]
  have hphase : s'.phase = .busy sn := by rw [hs']; exact hbusy
  refine ⟨?_, hphase, hs'⟩
  calc step s = engineTurn s' := by simp only [step, hturn, takeTurn]
    _ = exec i s' := engineTurn_ok hphase hdec

end Sys2Proof.Machine
end

section
/-! PROOFS. The memory spaces (20_memory.md): when a host access has a meaning, what the SRC, BM and OUT bytes read, what a SRC
write under a running command does to the engine's reads, and the statements of this family. -/
namespace Sys2Proof.Machine

/-! ### ERR_INFO (R48) -/

/-- The high part of two joined words counts `2 ^ m` times. -/
theorem toNat_append_eq_add {n m : Nat} (x : BitVec n) (y : BitVec m) :
    (x ++ y).toNat = x.toNat * 2 ^ m + y.toNat := by
  rw [BitVec.toNat_append, ← Nat.shiftLeft_add_eq_or_of_lt y.isLt, Nat.shiftLeft_eq]

/-- The three fields of ERR_INFO as a number. -/
theorem toNat_errInfoWord (e : ErrInfo) :
    e.word.toNat = e.code.toNat + 256 * e.detail.toNat + 65536 * e.op.toNat := by
  simp only [ErrInfo.word, toNat_append_eq_add, BitVec.toNat_ofNat]
  omega

/-! ### The host contract (R87, R90) -/

theorem le_four_of_accessWidth {n : Nat} (h : accessWidth n) : n ≤ 4 := by
  rcases h with rfl | rfl | rfl <;> decide

theorem exists_map_eq_ok_iff {ε α β : Type} (f : α → β) (x : Except ε α) :
    (∃ b, x.map f = .ok b) ↔ ∃ a, x = .ok a := by
  cases x <;> simp [Except.map]

theorem checkRegAccess_ok_iff (addr n : Nat) :
    (∃ r, checkRegAccess addr n = .ok r) ↔ n = 4 ∧ addr % 4 = 0 ∧ addr < 0x40 := by
  rcases checkRegAccess_cases addr n with ⟨r, e, hn, -, ha⟩ | ⟨e, h⟩
  · exact iff_of_true ⟨r, e⟩ ⟨hn, ha⟩
  · exact iff_of_false (by simp [e]) h

theorem checkByteAccess_ok_iff (p : Params) (sp : Space) (addr n : Nat) :
    (∃ u, checkByteAccess p sp addr n = .ok u) ↔ accessWidth n ∧ addr + n ≤ p.size sp := by
  rcases checkByteAccess_cases p sp addr n with ⟨e, h⟩ | ⟨e, h⟩
  · exact iff_of_true ⟨(), e⟩ h
  · exact iff_of_false (by rcases e with e | e <;> simp [e]) h

theorem hostRead_ok_iff (s : State) (sp : Space) (addr n : Nat) :
    (∃ r, hostRead s sp addr n = .ok r) ↔ accessLegal s.params sp addr n := by
  cases sp with
  | reg => exact (exists_map_eq_ok_iff _ _).trans (checkRegAccess_ok_iff addr n)
  | src | bm | out => exact (exists_map_eq_ok_iff _ _).trans (checkByteAccess_ok_iff s.params _ addr n)

theorem hostWrite_ok_iff (s : State) (sp : Space) (addr n : Nat) (v : Word) :
    (∃ t, hostWrite s sp addr n v = .ok t) ↔ accessLegal s.params sp addr n := by
  cases sp with
  | reg => exact (exists_map_eq_ok_iff _ _).trans (checkRegAccess_ok_iff addr n)
  | src | bm | out => exact (exists_map_eq_ok_iff _ _).trans (checkByteAccess_ok_iff s.params _ addr n)

theorem accessLegal_result_iff (p : Params) {sp : Space} (hsp : sp = .bm ∨ sp = .out) (addr n : Nat) :
    accessLegal p sp addr n ↔ accessWidth n ∧ addr + n ≤ p.size sp := by
  rcases hsp with rfl | rfl <;> exact Iff.rfl

/-! ### Little-endian values (R87) -/

/-- The bytes of a written value, read again, are its low `n` bytes. -/
theorem toNat_leValue_leBytes (v : Word) {n : Nat} (hn : n ≤ 4) : (leValue (leBytes v n)).toNat = v.toNat % 256 ^ n := by
  rw [toNat_leValue (by simpa using hn), leNat_leBytes]

/-- Each byte of the value of a run of reads is the byte read there. -/
theorem leValue_readRun_digit (sp : Space) (m : Memory) (base : Nat) {n k : Nat} (hn : n ≤ 4) (hk : k < n) :
    (leValue (m.readRun sp base n)).toNat / 256 ^ k % 256 = (m.read sp (base + k)).toNat := by
  rw [toNat_leValue (by simpa using hn), leNat_digit _ k (by simpa using hk), getElem_readRun]

/-- A run that has been written reads back. -/
theorem readRun_writeRun_same (sp : Space) (m : Memory) (base : Nat) (bs : List Byte) :
    (m.writeRun base bs).readRun sp base bs.length = bs :=
  (readRun_eq_iff rfl).mpr fun _ h => read_writeRun_inside h

/-! ### SRC writes and the source port (R82, R83, R97) -/

@[simp] theorem srcWrite_port (addr : Nat) (bs : List Byte) (s : State) : (srcWrite addr bs s).port = s.port := by
  unfold srcWrite; split <;> rfl

/-- R87: byte `k` of a written value. -/
theorem read_srcWrite_leBytes (s : State) (addr : Nat) (v : Word) {n k : Nat} (hk : k < n) :
    (srcWrite addr (leBytes v n) s).src.read .src (addr + k) = BitVec.ofNat 8 (v.toNat / 256 ^ k) := by
  apply BitVec.eq_of_toNat_eq
  rw [srcWrite_src, read_writeRun_inside (by simpa using hk), getElem_leBytes, BitVec.toNat_ofNat]

/-- Everything an engine read of an index looks at. -/
theorem srcRead_congr {s t : State} {i : Nat} (hp : t.params = s.params) (hr : lookup t.raced i = lookup s.raced i)
    (hport : t.port = s.port) (hm : t.src.read .src i = s.src.read .src i) : srcRead t i = srcRead s i := by
  unfold srcRead; rw [hp, hr, hport, hm]

/-- R97: what is raced after a SRC write under a running command. -/
theorem lookup_raced_srcWrite {s : State} (hb : s.busy = true) (addr : Nat) (bs : List Byte) (a : Nat) :
    lookup (srcWrite addr bs s).raced a =
      if addr ≤ a ∧ a < addr + bs.length then some (s.free + (a - addr)) else lookup s.raced a := by
  simp only [srcWrite_busy hb, lookup_putRun, List.length_map, List.length_range]
  by_cases h : addr ≤ a ∧ a < addr + bs.length
  · simp [h, show a - addr < bs.length by omega]
  · rw [if_neg h, if_neg h]

/-- R97: a byte written under a running command answers its own free value. -/
theorem srcRead_srcWrite_inside {s : State} (hb : s.busy = true) {addr k : Nat} {bs : List Byte} (hk : k < bs.length)
    (hcap : addr + bs.length ≤ s.params.srcCap) :
    srcRead (srcWrite addr bs s) (addr + k) = .ok (Config.raceByte (s.free + k)) := by
  refine srcRead_raced (by rw [srcWrite_params]; omega) ?_
  rw [lookup_raced_srcWrite hb, if_pos (by omega), Nat.add_sub_cancel_left]

/-- R97: the engine's reads of the other bytes do not see the write. -/
theorem srcRead_srcWrite_outside {s : State} (hb : s.busy = true) {addr a : Nat} {bs : List Byte}
    (h : a < addr ∨ addr + bs.length ≤ a) : srcRead (srcWrite addr bs s) a = srcRead s a := by
  refine srcRead_congr (srcWrite_params ..) ?_ (srcWrite_port ..) ?_
  · rw [lookup_raced_srcWrite hb, if_neg (by omega)]
  · rw [srcWrite_src, read_writeRun_outside h]

/-- R271: an Idle engine without an error accepts the word written to CMD. -/
theorem hostWrite_cmd_accept {s : State} (hb : s.busy = false) (he : s.regs.err = false) (w : Word) :
    hostWrite s .reg 0x0C 4 w = .ok (accept w s) :=
  (hostWrite_reg s .cmd w).trans (congrArg Except.ok (writeCmd_accept hb he))

/-! ### BM and OUT reads (R84, R85) -/

/-- R84, R85: a read of BM or OUT while no command runs. -/
theorem hostRead_result_idle {s : State} {sp : Space} {addr n : Nat} (hsp : sp = .bm ∨ sp = .out) (hb : s.busy = false)
    (hn : accessWidth n) (h : addr + n ≤ s.params.size sp) :
    hostRead s sp addr n = .ok (leValue ((if sp = .bm then s.bm else s.out).readRun sp addr n), s) := by
  rcases hsp with rfl | rfl <;> simp only [hostRead] <;> rw [checkByteAccess_ok hn h] <;>
    simp [Except.map, resultRead, hb]

/-! ### The statements -/

/-- Settles O48: the map by its two directions, ERR_INFO by the places of its fields. -/
theorem registerLayout : Obligations.RegisterLayout :=
  ⟨by decide, regAt_offset, regAt_iff, fun s => toNat_errInfoWord s.regs.errInfo⟩

/-- Settles O51: an access is its check and then its effect, so it has a meaning when the check passes. -/
theorem accessesOutsideTheContractAreRefused : Obligations.AccessesOutsideTheContractAreRefused :=
  fun s sp addr n v => ⟨hostRead_ok_iff s sp addr n, hostWrite_ok_iff s sp addr n v⟩

/-- Settles O52: the write is a run of bytes read back, and acceptance forgets every race, so the next command reads them. -/
theorem sourceWritesReadBackLittleEndian : Obligations.SourceWritesReadBackLittleEndian := by
  refine ⟨fun s i => ⟨srcRead_past, fun hi hr => ⟨fun _ => srcRead_port hi hr, srcRead_memory hi hr⟩⟩, ?_⟩
  intro s addr n v hn hcap
  have hcap' : addr + n ≤ (srcWrite addr (leBytes v n) s).params.srcCap := by rwa [srcWrite_params]
  refine ⟨_, hostWrite_src hn hcap, fun k hk => ?_, fun a ha => ?_, ⟨_, hostRead_src hn hcap', ?_⟩, srcWrite_regs ..,
    srcWrite_phase .., srcWrite_bm .., srcWrite_out .., fun hb he w => ?_⟩
  · rw [read_srcWrite_leBytes s addr v hk, BitVec.toNat_ofNat]
  · rw [srcWrite_src, read_writeRun_outside (by simpa using ha)]
  · have hback := readRun_writeRun_same .src s.src addr (leBytes v n)
    rw [length_leBytes] at hback
    rw [srcWrite_src, hback, toNat_leValue_leBytes v (le_four_of_accessWidth hn)]
  · have hidle : (srcWrite addr (leBytes v n) s).busy = false := by rw [srcWrite_idle hb]; exact hb
    have hnoerr : (srcWrite addr (leBytes v n) s).regs.err = false := by rwa [srcWrite_regs]
    refine ⟨_, hostWrite_cmd_accept hidle hnoerr w, rfl, fun k hk hp => ?_⟩
    rw [srcRead_memory (by rw [accept_params]; omega) rfl (by rwa [accept_port, srcWrite_port]), accept_src,
      read_srcWrite_leBytes s addr v hk]

/-- Settles O53: a read is the bytes of the space when Idle, and the low bytes of the next free value when Busy. -/
theorem resultSpacesReadTheirBytesAndIgnoreWrites : Obligations.ResultSpacesReadTheirBytesAndIgnoreWrites := by
  intro s sp addr n v hsp hlegal
  obtain ⟨hn, hsize⟩ := (accessLegal_result_iff s.params hsp addr n).mp hlegal
  have hn4 := le_four_of_accessWidth hn
  refine ⟨hostWrite_result hsp hn hsize, fun hb => ⟨_, hostRead_result_idle hsp hb hn hsize, fun k hk => ?_⟩,
    fun hb => ⟨_, hostRead_result_busy hsp hb hn hsize, toNat_leValue_leBytes _ hn4⟩⟩
  rw [leValue_readRun_digit _ _ _ hn4 hk]
  rcases hsp with rfl | rfl <;> rfl

/-- Settles O54: the write races on its own bytes and leaves the engine's other reads alone. -/
theorem sourceWritesWhileBusyRace : Obligations.SourceWritesWhileBusyRace := by
  intro s addr n v hb hn hcap
  refine ⟨_, hostWrite_src hn hcap, fun k hk => ?_, fun a ha => ?_, srcWrite_regs .., srcWrite_phase ..⟩
  · exact srcRead_srcWrite_inside hb (by simpa using hk) (by simpa using hcap)
  · exact srcRead_srcWrite_outside hb (by simpa using ha)

/-- Settles O55: a Busy read draws one free value, which only the result registers and STATUS bit 3 show. -/
theorem registerReadsWhileBusy : Obligations.RegisterReadsWhileBusy := by
  intro s r hb
  have hread : hostRead s .reg r.offset 4 = .ok ((regRead s r).1, s.drawn 1) := by
    rw [hostRead_reg, regRead_busy hb]
  refine ⟨_, hread, regRead_exact s, ?_⟩
  rintro rfl k hk
  simp only [regRead_busy hb, regValueBusy, statusWord, statusBits_getLsbD, hb, if_neg hk]

end Sys2Proof.Machine
end

section
/-! PROOFS. The command words and the print streams (30_encoding.md): a word by its fields, what decodes to what, the reader of
a stream on the bytes of its parts, the encoder commands that fit, one host statement a turn, and the statements of this
family. -/
namespace Sys2Proof.Machine

/-! ### The command word and its fields (R110, R111) -/

/-- The three fields are the whole word. -/
theorem append_fields (w : Word) : (rsvField w ++ selField w) ++ opField w = w := by
  apply BitVec.eq_of_toNat_eq
  rw [toNat_append_eq_add, toNat_append_eq_add, rsvField_toNat, selField_toNat, opField_toNat]
  omega

@[simp] theorem opField_encode (i : Instr) : opField (encode i) = i.op := by
  have hop := i.op.isLt
  apply BitVec.eq_of_toNat_eq
  rw [opField_toNat, toNat_encode]
  omega

@[simp] theorem selField_encode (i : Instr) : selField (encode i) = i.sel := by
  have hop := i.op.isLt
  have hsel := i.sel.isLt
  apply BitVec.eq_of_toNat_eq
  rw [selField_toNat, toNat_encode]
  omega

@[simp] theorem rsvField_encode (i : Instr) : rsvField (encode i) = 0#22 := by
  have hop := i.op.isLt
  have hsel := i.sel.isLt
  apply BitVec.eq_of_toNat_eq
  rw [rsvField_toNat, toNat_encode, BitVec.toNat_ofNat]
  omega

/-- R110: a word is a command's when its fields are. -/
theorem encode_eq_iff (i : Instr) (w : Word) :
    encode i = w ↔ opField w = i.op ∧ selField w = i.sel ∧ rsvField w = 0#22 := by
  constructor
  · rintro rfl
    exact ⟨opField_encode i, selField_encode i, rsvField_encode i⟩
  · rintro ⟨hop, hsel, hrsv⟩
    rw [← append_fields w, hop, hsel, hrsv, encode]

/-- R112: the one command that no legal word stands for. -/
theorem eq_justify_three_of_not_wellFormed {i : Instr} (h : i.WellFormed ≠ true) : i = .justify 3#2 := by
  cases i with
  | justify pos => simpa [Instr.WellFormed] using h
  | init | feed | rhdr | xform | gen | clear => exact absurd rfl h

/-! ### What the decoder answers (R113) -/

/-- R111: the OP values of the table. -/
abbrev LegalOp (w : Word) : Prop := ¬ ((opField w).toNat < 1 ∨ 7 < (opField w).toNat)

theorem legalOp_iff (w : Word) : LegalOp w ↔ 1 ≤ w.toNat % 256 ∧ w.toNat % 256 ≤ 7 := by
  rw [LegalOp, opField_toNat]
  omega

/-- R115: a reserved bit is set. -/
abbrev ReservedSet (w : Word) : Prop :=
  rsvField w ≠ 0#22 ∨ (opField w ≠ 0x02#8 ∧ opField w ≠ 0x04#8 ∧ selField w ≠ 0#2)

theorem decodeWord_illegalOpcode {w : Word} (h : ¬ LegalOp w) : decodeWord w = .error .illegalOpcode :=
  if_pos (not_not.mp h)

theorem decodeWord_reservedBits {w : Word} (hop : LegalOp w) (h : ReservedSet w) : decodeWord w = .error .reservedBits := by
  unfold decodeWord
  rw [if_neg hop]
  by_cases hrsv : rsvField w ≠ 0#22
  · rw [if_pos hrsv]
  · rw [if_neg hrsv, if_pos (h.resolve_left hrsv)]

theorem decodeWord_badJustify {w : Word} (hop : opField w = 0x02#8) (hsel : selField w = 3#2) (hrsv : rsvField w = 0#22) :
    decodeWord w = .error .badJustify := by
  simp [decodeWord, hop, hsel, hrsv]

/-- A word that passes the checks decodes to its opcode's command. -/
theorem decodeWord_commandOf {w : Word} (hop : LegalOp w) (hres : ¬ ReservedSet w)
    (hpos : ¬ (opField w = 0x02#8 ∧ selField w = 3#2)) : decodeWord w = .ok (commandOf (opField w) (selField w)) := by
  obtain ⟨hrsv, hsel⟩ := not_or.mp hres
  unfold decodeWord
  rw [if_neg hop, if_neg hrsv, if_neg hsel, if_neg hpos]

/-- Everything Decode can answer, in the order of its checks. -/
theorem decodeWord_cases (w : Word) :
    (¬ LegalOp w ∧ decodeWord w = .error .illegalOpcode) ∨
    (LegalOp w ∧ ReservedSet w ∧ decodeWord w = .error .reservedBits) ∨
    (LegalOp w ∧ ¬ ReservedSet w ∧ (opField w = 0x02#8 ∧ selField w = 3#2) ∧ decodeWord w = .error .badJustify) ∨
    (LegalOp w ∧ ¬ ReservedSet w ∧ ¬ (opField w = 0x02#8 ∧ selField w = 3#2) ∧
      decodeWord w = .ok (commandOf (opField w) (selField w))) := by
  by_cases hop : LegalOp w
  · by_cases hres : ReservedSet w
    · exact .inr (.inl ⟨hop, hres, decodeWord_reservedBits hop hres⟩)
    · by_cases hpos : opField w = 0x02#8 ∧ selField w = 3#2
      · exact .inr (.inr (.inl ⟨hop, hres, hpos,
          decodeWord_badJustify hpos.1 hpos.2 (not_not.mp (not_or.mp hres).1)⟩))
      · exact .inr (.inr (.inr ⟨hop, hres, hpos, decodeWord_commandOf hop hres hpos⟩))
  · exact .inl ⟨hop, decodeWord_illegalOpcode hop⟩

/-- The command of a legal opcode has that opcode, and the selector when its opcode takes one. -/
theorem commandOf_legal {w : Word} (hop : LegalOp w) (hres : ¬ ReservedSet w) :
    (commandOf (opField w) (selField w)).op = opField w ∧ (commandOf (opField w) (selField w)).sel = selField w := by
  obtain ⟨-, hsel⟩ := not_or.mp hres
  rcases opField_of_legal hop with h | h | h | h | h | h | h <;> rw [h] at hsel ⊢ <;>
    simp_all [commandOf, Instr.op, Instr.sel]

/-- R114: Decode names a legal OP illegal on no word. -/
theorem decodeWord_ne_illegalOpcode {w : Word} (hop : LegalOp w) : decodeWord w ≠ .error .illegalOpcode := by
  rcases (decodeWord_cases w).resolve_left (fun h => h.1 hop) with ⟨-, -, e⟩ | ⟨-, -, -, e⟩ | ⟨-, -, -, e⟩ <;>
    simp [e]

/-- R110 to R117: Decode answers a command for the command's own word, and for no other. -/
theorem decodeWord_ok_iff (w : Word) (i : Instr) : decodeWord w = .ok i ↔ i.WellFormed = true ∧ encode i = w := by
  constructor
  · intro h
    rcases decodeWord_cases w with ⟨-, e⟩ | ⟨-, -, e⟩ | ⟨-, -, -, e⟩ | ⟨hop, hres, hpos, e⟩
    · simp [e] at h
    · simp [e] at h
    · simp [e] at h
    · obtain rfl : commandOf (opField w) (selField w) = i := Except.ok.inj (e.symm.trans h)
      obtain ⟨hcop, hcsel⟩ := commandOf_legal hop hres
      have hrsv : rsvField w = 0#22 := not_not.mp (not_or.mp hres).1
      refine ⟨by_contra fun hwf => hpos ?_, (encode_eq_iff _ w).mpr ⟨hcop.symm, hcsel.symm, hrsv⟩⟩
      rw [eq_justify_three_of_not_wellFormed hwf] at hcop hcsel
      exact ⟨hcop.symm, hcsel.symm⟩
  · rintro ⟨hwf, rfl⟩
    cases i with
    | justify pos =>
      have hpos : pos ≠ 3#2 := by simpa [Instr.WellFormed] using hwf
      simp [decodeWord, commandOf, Instr.op, Instr.sel, hpos]
    | init | feed | rhdr | xform | gen | clear => simp [decodeWord, commandOf, Instr.op, Instr.sel]

/-! ### The opcode table (R111) -/

theorem op_toNat (i : Instr) : i.op.toNat = i.row + 1 := by cases i <;> rfl

theorem row_eq_of_encode_eq {i j : Instr} (h : encode i = encode j) : i.row = j.row := by
  have hop : i.op = j.op := by rw [← opField_encode, h, opField_encode]
  have hnat : i.op.toNat = j.op.toNat := congrArg BitVec.toNat hop
  rw [op_toNat, op_toNat] at hnat
  omega

theorem encode_mem_row (i : Instr) : ∃ r, opcodeTable[i.row]? = some r ∧ encode i &&& r.mask = r.pattern := by
  cases i with
  | init => exact Laws.OpcodeRow.init
  | justify pos => exact Laws.OpcodeRow.justify pos
  | feed => exact Laws.OpcodeRow.feed
  | rhdr mode => exact Laws.OpcodeRow.rhdr mode
  | xform => exact Laws.OpcodeRow.xform
  | gen => exact Laws.OpcodeRow.gen
  | clear => exact Laws.OpcodeRow.clear

/-- The mask of the rows that take a selector keeps every other bit. -/
theorem fields_of_selMask {w p : Word} (h : w &&& 0xFFFFFCFF#32 = p) : opField w = opField p ∧ rsvField w = rsvField p := by
  subst h
  simp only [opField, rsvField, BitVec.extractLsb'_and]
  exact ⟨BitVec.and_allOnes.symm, BitVec.and_allOnes.symm⟩

/-- The mask of the rows without a selector keeps every bit. -/
theorem eq_of_fullMask {w p : Word} (h : w &&& 0xFFFFFFFF#32 = p) : w = p := by
  rw [← h]
  exact BitVec.and_allOnes.symm

/-- A row of the table holds the words of its own command, and no others. -/
theorem mem_row_iff {k : Nat} {r : OpRow} (h : opcodeTable[k]? = some r) (w : Word) :
    w &&& r.mask = r.pattern ↔ ∃ i : Instr, i.row = k ∧ encode i = w := by
  constructor
  · intro hw
    have hk : k < 7 := (List.getElem?_eq_some_iff.mp h).1
    interval_cases k <;> cases h
    · exact ⟨.init, rfl, (eq_of_fullMask hw).symm⟩
    · obtain ⟨hop, hrsv⟩ := fields_of_selMask hw
      exact ⟨.justify (selField w), rfl, (encode_eq_iff _ w).mpr ⟨hop, rfl, hrsv⟩⟩
    · exact ⟨.feed, rfl, (eq_of_fullMask hw).symm⟩
    · obtain ⟨hop, hrsv⟩ := fields_of_selMask hw
      exact ⟨.rhdr (selField w), rfl, (encode_eq_iff _ w).mpr ⟨hop, rfl, hrsv⟩⟩
    · exact ⟨.xform, rfl, (eq_of_fullMask hw).symm⟩
    · exact ⟨.gen, rfl, (eq_of_fullMask hw).symm⟩
    · exact ⟨.clear, rfl, (eq_of_fullMask hw).symm⟩
  · rintro ⟨i, rfl, rfl⟩
    obtain ⟨r', hr', hmem⟩ := encode_mem_row i
    obtain rfl : r' = r := Option.some.inj (hr'.symm.trans h)
    exact hmem

/-! ### Reading a stream back (R123, R124) -/

/-- R121: a raster part whose header can declare its data; every other part is told from its bytes. -/
def Segment.Declared : Segment → Prop
  | .init => True
  | .justify _ => True
  | .feed _ => True
  | .raster _ wb lines data => wb < 65536 ∧ lines < 65536 ∧ data.length = wb * lines

/-- R123: the reader takes the first part off a stream, and no byte more. -/
theorem readSegment_bytes {seg : Segment} (h : seg.Declared) (rest : List Byte) :
    readSegment (seg.bytes ++ rest) = some (seg, rest) := by
  cases seg with
  | init => rfl
  | justify pos => rfl
  | feed n => rfl
  | raster mode wb lines data =>
    obtain ⟨hwb, hlines, hdata⟩ := h
    simp [Segment.bytes, rasterHeader, readSegment, le16_lo8_hi8 hwb, le16_lo8_hi8 hlines, ← hdata]

theorem readStream_of_readSegment {bs rest : List Byte} {seg : Segment} (h : readSegment bs = some (seg, rest)) (fuel : Nat) :
    readStream (fuel + 1) bs = (readStream fuel rest).map (seg :: ·) := by
  cases bs with
  | nil => cases h
  | cons b bs => simp [readStream, h]

/-- R123: the bytes of any sequence of declared parts read back as those parts. -/
theorem readStream_flatMap_bytes {segs : List Segment} (h : ∀ seg ∈ segs, seg.Declared) {fuel : Nat}
    (hf : segs.length ≤ fuel) : readStream fuel (segs.flatMap Segment.bytes) = some segs := by
  induction segs generalizing fuel with
  | nil => cases fuel <;> rfl
  | cons seg segs ih =>
    obtain ⟨hseg, hsegs⟩ := List.forall_mem_cons.mp h
    cases fuel with
    | zero => cases hf
    | succ fuel =>
      rw [List.flatMap_cons, readStream_of_readSegment (readSegment_bytes hseg _), ih hsegs (Nat.le_of_succ_le_succ hf)]
      rfl

/-- R232: every block has a line at least, so the blocks are no more than the iterations. -/
theorem length_rasterSegments_le (row : Nat → List Byte) (T fuel cur : Nat) :
    (rasterSegments row T fuel cur).length ≤ fuel := by
  induction fuel generalizing cur with
  | zero => simp [rasterSegments]
  | succ fuel ih =>
    rw [rasterSegments]
    split
    · simpa using ih _
    · exact Nat.zero_le _

/-- R233: every block declares 48 bytes a row and at most 255 rows, and carries them. -/
theorem declared_of_mem_rasterSegments {row : Nat → List Byte} (hrow : ∀ r, (row r).length = 48) {T fuel cur : Nat}
    {seg : Segment} (h : seg ∈ rasterSegments row T fuel cur) : seg.Declared := by
  induction fuel generalizing cur with
  | zero => simp [rasterSegments] at h
  | succ fuel ih =>
    rw [rasterSegments] at h
    split at h
    · rcases List.mem_cons.mp h with rfl | h
      · have hk : min (T - cur) Config.maxLinesPerBlock ≤ 255 := Nat.min_le_right _ _
        refine ⟨by decide, by omega, ?_⟩
        rw [length_flatMap_const _ _ 48 fun _ _ => hrow _, List.length_range]
        rfl
      · exact ih h
    · cases h

theorem declared_of_mem_genSegments {row : Nat → List Byte} (hrow : ∀ r, (row r).length = 48) {T : Nat} {n : Byte}
    {seg : Segment} (h : seg ∈ genSegments row T n) : seg.Declared := by
  simp only [genSegments, List.cons_append, List.mem_cons, List.mem_append, List.not_mem_nil, or_false] at h
  rcases h with rfl | rfl | h | rfl
  · trivial
  · trivial
  · exact declared_of_mem_rasterSegments hrow h
  · trivial

theorem length_genSegments_le (row : Nat → List Byte) (T : Nat) (n : Byte) : (genSegments row T n).length ≤ T + 3 := by
  have hblocks := length_rasterSegments_le row T T 0
  simp only [genSegments, List.cons_append, List.length_cons, List.length_append, List.length_nil]
  omega

/-! ### The engine's turn on a word that fails, and on a frame that fits -/

/-- R113, R274: a word that fails Decode completes with its CommandError and nothing else changes. -/
theorem engineTurn_commandError {s : State} {sn : Snapshot} {e : CommandError} (h : s.phase = .busy sn)
    (hd : decodeWord sn.cmd = .error e) : engineTurn s = .next { s with
      regs := { s.regs with
        err := true, errInfo := { code := 4#8, detail := (commandDetail e).code, op := BitVec.ofNat 8 sn.cmd.toNat } }
      phase := .idle, raced := [] } := by
  rw [engineTurn_error h hd, ← opField_eq]
  cases e <;> rfl

/-- R141, R273: an encoder command whose frame fits appends it and completes without error. -/
theorem exec_encoder_fits {s : State} {sn : Snapshot} {i : Instr} {f : List Byte} (h : s.phase = .busy sn)
    (hf : encoderFrame sn i = some f) (hcap : s.regs.outLen + f.length ≤ s.params.outCap) : exec i s = .next { s with
      out := s.out.writeRun s.regs.outLen f
      regs := { s.regs with outLen := s.regs.outLen + f.length, done := true }
      phase := .idle, raced := [] } := by
  rw [exec_encoder h hf, appendFrame_fits hcap]
  rfl

/-! ### The host's turn (R93, R126) -/

theorem step_host {s s' : State} (h : nextTurn s = (.host, s')) : step s = hostTurn s' := by
  simp only [step, h, takeTurn]

theorem hostTurn_stmt {s : State} {st : HostStmt} (h : s.host.program[s.host.pc]? = some st) :
    hostTurn s = hostStmt st s := by
  simp only [hostTurn, h]

theorem hostTurn_ended {s : State} (h : s.host.program[s.host.pc]? = none) : hostTurn s = .next s := by
  simp only [hostTurn, h]

theorem advance_eq_jump {s t : State} (h : t.host = s.host) : t.advance = t.jump (s.host.pc + 1) := by
  rw [← h]
  rfl

theorem binds_bind_jump (name : Nat) (v : Word) (k : Nat) (u : State) : Binds name v k u ((u.bind name v).jump k) :=
  ⟨rfl, lookup_bind_same name v u, fun _ hm => lookup_bind_other v u hm⟩

/-- A read inside the host contract binds its name to the value and goes on. -/
theorem hostReadStmt_ok {s u : State} {sp : Space} {addr n : Nat} {v : Word} (h : hostRead s sp addr n = .ok (v, u))
    (name : Nat) : ∃ t, hostReadStmt sp addr n name s = .next t ∧ Binds name v (s.host.pc + 1) u t := by
  refine ⟨_, ?_, binds_bind_jump name v (s.host.pc + 1) u⟩
  simp only [hostReadStmt, h]
  rw [← hostRead_host h]
  rfl

/-- A write inside the host contract is made, and the host goes on. -/
theorem hostWriteStmt_ok {s u : State} {sp : Space} {addr n : Nat} {v : Word} (h : hostWrite s sp addr n v = .ok u) :
    hostWriteStmt sp addr n v s = .next (u.jump (s.host.pc + 1)) := by
  simp only [hostWriteStmt, h]
  rw [advance_eq_jump (hostWrite_host h)]

/-- R126: WAIT binds the STATUS word it reads, and stays while bit 0 of it is 1. -/
theorem hostWait_binds (s : State) : ∃ v u t, hostRead s .reg 0x08 4 = .ok (v, u) ∧ v.getLsbD 0 = s.busy ∧
    hostWait s = .next t ∧ Binds waitName v (if v.getLsbD 0 = true then s.host.pc else s.host.pc + 1) u t := by
  refine ⟨(regRead s .status).1, (regRead s .status).2, _, hostRead_reg s .status, regRead_status_busy s, hostWait_eq s, ?_⟩
  rw [regRead_status_busy]
  exact binds_bind_jump ..

theorem hostBit_clear {s : State} {name k : Nat} {v : Word} (hv : lookup s.host.names name = some v)
    (hk : v.getLsbD k = false) (l : Nat) : hostBit name k l s = .next s.advance := by
  simp [hostBit, hv, hk]

theorem hostBit_taken {s : State} {name k l j : Nat} {v : Word} (hv : lookup s.host.names name = some v)
    (hk : v.getLsbD k = true) (hl : labelIndex s.host.program l = some j) : hostBit name k l s = .next (s.jump j) := by
  simp [hostBit, hv, hk, hl]

/-! ### The statements -/

/-- Settles O1: the checks of Decode, in their order, leave the words of the well-formed commands. -/
theorem decodeIsTheInverseOfEncode : Obligations.DecodeIsTheInverseOfEncode := decodeWord_ok_iff

/-- Settles O27: the parts of the grammar are declared by their bytes, and `T + 3` bounds their count. -/
theorem genStreamReadsBackAsItsGrammar : Obligations.GenStreamReadsBackAsItsGrammar := by
  intro row T n fuel hrow hf
  exact readStream_flatMap_bytes (fun _ hseg => declared_of_mem_genSegments hrow hseg)
    ((length_genSegments_le row T n).trans hf)

/-- Settles O2: the words of a row are the encodings of its command, which decode to it when it is well formed. -/
theorem decoderAgreesWithTheOpcodeTable : Obligations.DecoderAgreesWithTheOpcodeTable := by
  refine ⟨fun j k r r' w hr hr' hw hw' => ?_, fun w i hd => ?_, fun k r w hr hw => ?_⟩
  · obtain ⟨i, rfl, rfl⟩ := (mem_row_iff hr w).mp hw
    obtain ⟨i', rfl, hi'⟩ := (mem_row_iff hr' _).mp hw'
    exact (row_eq_of_encode_eq hi').symm
  · obtain ⟨-, rfl⟩ := (decodeWord_ok_iff w i).mp hd
    exact encode_mem_row i
  · obtain ⟨i, rfl, rfl⟩ := (mem_row_iff hr w).mp hw
    by_cases hwf : i.WellFormed = true
    · exact .inr ⟨i, (decodeWord_ok_iff _ i).mpr ⟨hwf, rfl⟩, rfl⟩
    · obtain rfl := eq_justify_three_of_not_wellFormed hwf
      exact .inl ⟨rfl, selField_encode _, decodeWord_badJustify (opField_encode _) (selField_encode _) (rsvField_encode _)⟩

/-- Settles O4: OP is the first check of Decode, and a legal OP fails, if at all, with another name. -/
theorem illegalOpcodesFailByName : Obligations.IllegalOpcodesFailByName := by
  intro s sn h
  refine ⟨fun hop => engineTurn_commandError h (decodeWord_illegalOpcode ?_),
    fun h1 h7 => decodeWord_ne_illegalOpcode ((legalOp_iff _).mpr ⟨h1, h7⟩)⟩
  rw [legalOp_iff]
  omega

/-- Settles O5: the reserved bits are checked right after a legal OP. -/
theorem reservedBitsFailByName : Obligations.ReservedBitsFailByName := by
  intro s sn h h1 h7 hres
  have hset : ReservedSet sn.cmd := by
    simpa only [ReservedSet, ne_eq, BitVec.toNat_eq, opField_toNat, selField_toNat, rsvField_toNat, BitVec.toNat_ofNat]
      using hres
  exact engineTurn_commandError h (decodeWord_reservedBits ((legalOp_iff _).mpr ⟨h1, h7⟩) hset)

/-- Settles O9: a count in range is the frame's last byte. -/
theorem feedAppendsItsCount : Obligations.FeedAppendsItsCount := by
  intro s sn n h hn hle hcap
  have hframe : encoderFrame sn .feed = some [0x1B#8, 0x64#8, BitVec.ofNat 8 n] := by
    simp only [encoderFrame, hn, Int.toNat_natCast]
    rw [if_pos (by omega)]
  exact exec_encoder_fits h hframe hcap

/-- Settles O10: the eight bytes are the encoder's frame, whatever the fields hold. -/
theorem rhdrAppendsItsHeader : Obligations.RhdrAppendsItsHeader := by
  intro s sn mode h hcap
  have hframe : encoderFrame sn (.rhdr mode) = some _ := rfl
  exact exec_encoder_fits h hframe hcap

/-- Settles O57, statement by statement. -/
theorem hostStatementsDoWhatTheyStandFor : Obligations.HostStatementsDoWhatTheyStandFor := by
  intro s s' hturn pc at'
  rw [step_host hturn]
  refine ⟨hostTurn_ended, fun st hst => ?_⟩
  rw [hostTurn_stmt hst]
  cases st with
  | read sp addr n name => exact fun v u hr => hostReadStmt_ok hr name
  | write sp addr n v => exact fun u hw => hostWriteStmt_ok hw
  | busRead addr n name =>
    intro sp off v u hl hr
    simp only [hostStmt, hl]
    exact hostReadStmt_ok hr name
  | busWrite addr n v =>
    intro sp off u hl hw
    simp only [hostStmt, hl]
    exact hostWriteStmt_ok hw
  | wait => exact hostWait_binds s'
  | waitIrq =>
    show hostWaitIrq s' = _
    unfold hostWaitIrq
    split <;> rfl
  | label l => rfl
  | bit name k l =>
    exact fun v hv => ⟨fun hk => hostBit_clear hv hk l,
      fun hk j hj hfirst => hostBit_taken hv hk (labelIndex_of_first hj hfirst)⟩
  | halt => rfl

/-- Settles O3: ten closed words. -/
theorem specWordsDecodeAsTheSpecSays : Obligations.SpecWordsDecodeAsTheSpecSays := by
  unfold Obligations.SpecWordsDecodeAsTheSpecSays
  decide

/-- Settles O6: the word fails Decode's last check, and the command itself, run with that selector, the same way. -/
theorem justifyWithSelectorThreeFails : Obligations.JustifyWithSelectorThreeFails := by
  intro s sn h hcmd
  have hd : decodeWord sn.cmd = .error .badJustify := by rw [hcmd]; decide
  have hturn := engineTurn_commandError h hd
  rw [hcmd] at hturn
  refine ⟨hturn, ?_⟩
  rw [exec_justify h, if_pos rfl, engineTurn_error h hd]
  rfl

/-- Settles O7: the two bytes are the encoder's frame. -/
theorem initAppendsItsTwoBytes : Obligations.InitAppendsItsTwoBytes := by
  intro s sn h hcap
  have hframe : encoderFrame sn .init = some _ := rfl
  exact exec_encoder_fits h hframe hcap

/-- Settles O8: a legal selector has a frame. -/
theorem justifyAppendsItsPosition : Obligations.JustifyAppendsItsPosition := by
  intro s sn pos h hpos hcap
  have hframe : encoderFrame sn (.justify pos) = some _ := if_neg hpos
  exact exec_encoder_fits h hframe hcap

end Sys2Proof.Machine
end

section
/-! PROOFS. The frame encoder commands (40_frame_encoder.md): everything such a command can do, and the statements of this
family. -/
namespace Sys2Proof.Machine

/-- R141, R142: an encoder command either appends its frame and completes, or fails, with an illegal operand or a frame that
does not fit, and changes no buffer. -/
theorem exec_encoder_cases {s t : State} {sn : Snapshot} {i : Instr} (h : s.phase = .busy sn)
    (hi : i = .init ∨ (∃ pos, i = .justify pos) ∨ i = .feed ∨ ∃ mode, i = .rhdr mode) (ht : exec i s = .next t) :
    (∃ f, encoderFrame sn i = some f ∧ s.regs.outLen + f.length ≤ s.params.outCap ∧ t = { s with
      out := s.out.writeRun s.regs.outLen f
      regs := { s.regs with outLen := s.regs.outLen + f.length, done := true }
      phase := .idle, raced := [] }) ∨
    ((encoderFrame sn i = none ∨ ∃ f, encoderFrame sn i = some f ∧ s.params.outCap < s.regs.outLen + f.length) ∧
      ∃ d, t = completeError sn d s) := by
  cases hf : encoderFrame sn i with
  | none =>
    obtain ⟨d, hd⟩ := exec_encoder_none h hi hf
    exact .inr ⟨.inl rfl, d, Host.Outcome.next.inj (ht.symm.trans hd)⟩
  | some f =>
    by_cases hcap : s.regs.outLen + f.length ≤ s.params.outCap
    · exact .inl ⟨f, rfl, hcap, Host.Outcome.next.inj (ht.symm.trans (exec_encoder_fits h hf hcap))⟩
    · have hfull : s.params.outCap < s.regs.outLen + f.length := by omega
      have hnext := exec_encoder h hf
      rw [appendFrame_full hfull] at hnext
      exact .inr ⟨.inr ⟨f, rfl, hfull⟩, .outCapacity, Host.Outcome.next.inj (ht.symm.trans hnext)⟩

/-- Settles O13: the state of a frame that fits, and its stream read back over the end of the old one. -/
theorem encoderCommandsAppendToTheStream : Obligations.EncoderCommandsAppendToTheStream := by
  intro s sn i frame h hf hcap
  have hread := readRun_writeRun_append .out s.out 0 s.regs.outLen frame
  rw [Nat.zero_add] at hread
  exact ⟨_, exec_encoder_fits h hf hcap, rfl, rfl, rfl, rfl, hread⟩

/-- Settles O14: a frame that is appended touches no OUT byte outside it, and a failure only the error record. -/
theorem encoderCommandsFrame : Obligations.EncoderCommandsFrame := by
  intro s t sn i h hi ht
  rcases exec_encoder_cases h hi ht with ⟨f, hf, hcap, rfl⟩ | ⟨-, d, rfl⟩
  · refine ⟨rfl, rfl, rfl, rfl, rfl, rfl, rfl, fun frame hframe a ha => ?_, fun hfail => ?_⟩
    · obtain rfl : f = frame := Option.some.inj (hf.symm.trans hframe)
      exact read_writeRun_outside ha
    · rcases hfail with hnone | ⟨frame, hframe, hfull⟩
      · cases hf.symm.trans hnone
      · obtain rfl : f = frame := Option.some.inj (hf.symm.trans hframe)
        omega
  · exact ⟨rfl, rfl, rfl, rfl, rfl, rfl, rfl, fun _ _ _ _ => rfl, fun _ => ⟨rfl, rfl⟩⟩

/-- Settles O11: the range check comes first, so no case on the capacity is left. -/
theorem feedOutOfRangeAlwaysFails : Obligations.FeedOutOfRangeAlwaysFails := by
  intro s sn h hn
  have hrange : ¬ feedInRange sn.feedLines := fun ⟨hlow, hhigh⟩ =>
    hn.elim (not_lt.mpr hlow) (not_lt.mpr hhigh)
  rw [exec_feed h, if_neg hrange]
  rfl

end Sys2Proof.Machine
end

section
/-! PROOFS. The transform step (41_image_transformer.md): the bilinear kernel as a weighted sum of its four taps, the bitmaps of
lawful kernels, the three errors of the step, and the statements of this family. -/
namespace Sys2Proof.Machine

/-! ### The target height (R185) -/

/-- R188: a source 384 samples wide is not scaled. -/
theorem targetHeight_full_width (H : Nat) : targetHeight 384 H = H :=
  Nat.mul_div_cancel H (by decide)

/-- R201: a source wider than 384 times its height has no target line. -/
theorem targetHeight_eq_zero {W H : Nat} (h : H * 384 < W) : targetHeight W H = 0 :=
  Nat.div_eq_of_lt h

/-! ### One axis of the kernel (R189) -/

/-- The position that truncated subtraction clamps at 0 is the one `max` clamps, over the integers and over the rationals. -/
theorem cast_clamp {R : Type} [Ring R] [LinearOrder R] [IsStrictOrderedRing R] (a b unit : Nat) {n : Nat} (hn : 0 < n) :
    min (max ((a : R) - b) 0) (unit * (n - 1)) = ((min (a - b) (unit * (n - 1)) : Nat) : R) := by
  rw [Nat.cast_min, Nat.cast_mul, Nat.cast_pred hn]
  congr 1
  rcases le_total a b with h | h
  · rw [max_eq_right (sub_nonpos.mpr (Nat.cast_le.mpr h)), Nat.sub_eq_zero_of_le h, Nat.cast_zero]
  · rw [max_eq_left (sub_nonneg.mpr (Nat.cast_le.mpr h)), Nat.cast_sub h]

/-- The integer form's first tap, its position clamped over the integers. -/
theorem axisTap_lo_eq_int (a b unit : Nat) {n : Nat} (hn : 0 < n) :
    (axisTap n unit (a - b)).lo = (min (max ((a : Int) - b) 0) (unit * (n - 1)) / unit).toNat := by
  rw [cast_clamp a b unit hn, ← Int.natCast_div, Int.toNat_natCast]
  rfl

/-- The rational form's clamped position is the first tap and, in `unit`s, the weight of the second. -/
theorem axisTap_rational (a b : Nat) {unit n : Nat} (hu : 0 < unit) (hn : 0 < n) :
    min (max (((a : ℚ) - b) / unit) 0) (n - 1) =
      (axisTap n unit (a - b)).lo + ((axisTap n unit (a - b)).weight : ℚ) / unit := by
  have hu' : (0 : ℚ) < unit := Nat.cast_pos.mpr hu
  have hdm := Nat.div_add_mod (min (a - b) (unit * (n - 1))) unit
  calc min (max (((a : ℚ) - b) / unit) 0) (n - 1)
      = min (max ((a : ℚ) - b) 0) (unit * (n - 1)) / unit := by
        rw [← min_div_div_right hu'.le, ← max_div_div_right hu'.le, zero_div, mul_div_cancel_left₀ _ hu'.ne']
    _ = ((unit * (axisTap n unit (a - b)).lo + (axisTap n unit (a - b)).weight : Nat) : ℚ) / unit := by
        rw [cast_clamp a b unit hn]
        simp only [axisTap, hdm]
    _ = _ := by
        rw [Nat.cast_add, Nat.cast_mul, add_div, mul_div_cancel_left₀ _ hu'.ne']

/-- The first tap is the floor of the rational form's clamped position. -/
theorem toNat_floor_axisTap {unit : Nat} (n pos : Nat) (hu : 0 < unit) :
    ⌊((axisTap n unit pos).lo : ℚ) + ((axisTap n unit pos).weight : ℚ) / unit⌋.toNat = (axisTap n unit pos).lo := by
  rw [Int.floor_natCast_add, Int.floor_eq_zero_iff.mpr ⟨by positivity, ?_⟩, add_zero, Int.toNat_natCast]
  exact (div_lt_one (Nat.cast_pos.mpr hu)).mpr (Nat.cast_lt.mpr (axisTap_weight_lt hu))

theorem axisTap_hi (n unit pos : Nat) : (axisTap n unit pos).hi = min ((axisTap n unit pos).lo + 1) (n - 1) := rfl

/-- P3 on one axis: at unit scale the tap is the target's own sample, alone. -/
theorem axisTap_unit {n unit k : Nat} (hu : 0 < unit) (hk : k < n) :
    (axisTap n unit (unit * k)).lo = k ∧ (axisTap n unit (unit * k)).weight = 0 := by
  have hmin : min (unit * k) (unit * (n - 1)) = unit * k := min_eq_left (Nat.mul_le_mul_left _ (by omega))
  simp only [axisTap, hmin]
  exact ⟨Nat.mul_div_cancel_left k hu, Nat.mul_mod_right unit k⟩

/-! ### The bilinear kernel as a weighted sum (R189) -/

/-- R189: the numerator `N` of the integer form; `bilinearNat_eq` and `bilinearMean_eq` tie it to both forms. -/
def bilinearSum (W H T : Nat) (S : Nat → Byte) (x y : Nat) : Nat :=
  let cx := columnTap W x
  let cy := rowTap H T y
  (2 * T - cy.weight) * ((768 - cx.weight) * (S (cy.lo * W + cx.lo)).toNat + cx.weight * (S (cy.lo * W + cx.hi)).toNat) +
    cy.weight * ((768 - cx.weight) * (S (cy.hi * W + cx.lo)).toNat + cx.weight * (S (cy.hi * W + cx.hi)).toNat)

theorem bilinearNat_eq (W H T : Nat) (S : Nat → Byte) (x y : Nat) :
    bilinearNat W H T S x y = (2 * bilinearSum W H T S x y + 1536 * T) / (2 * (1536 * T)) := rfl

theorem columnTap_weight_lt (W x : Nat) : (columnTap W x).weight < 768 := axisTap_weight_lt (by decide)

theorem rowTap_weight_lt (H y : Nat) {T : Nat} (hT : 0 < T) : (rowTap H T y).weight < 2 * T := axisTap_weight_lt (by omega)

/-- The integer form's taps and weights are those of the rational form, scaled by the two units. -/
theorem bilinearMean_eq {W H T : Nat} (hW : 0 < W) (hH : 0 < H) (hT : 0 < T) (S : Nat → Byte) (x y : Nat) :
    bilinearMean W H T S x y = (bilinearSum W H T S x y : ℚ) / (1536 * T) := by
  have hT' : (T : ℚ) ≠ 0 := Nat.cast_ne_zero.mpr hT.ne'
  have hx := axisTap_rational ((2 * x + 1) * W) 384 (unit := 768) (by decide) hW
  have hy := axisTap_rational ((2 * y + 1) * H) T (unit := 2 * T) (by omega) hH
  have hx0 := toNat_floor_axisTap (unit := 768) W ((2 * x + 1) * W - 384) (by decide)
  have hy0 := toNat_floor_axisTap (unit := 2 * T) H ((2 * y + 1) * H - T) (by omega)
  have hwx := (columnTap_weight_lt W x).le
  have hwy := (rowTap_weight_lt H y hT).le
  push_cast at hx hy hx0 hy0
  simp only [bilinearMean, hx, hy, hx0, hy0]
  simp only [bilinearSum, columnTap, rowTap, axisTap_hi] at hwx hwy ⊢
  push_cast [Nat.cast_sub hwx, Nat.cast_sub hwy]
  field_simp
  ring

/-- P2 before the rounding: equal samples give that sample, `1536*T` times. -/
theorem bilinearSum_const (W H : Nat) {T : Nat} (hT : 0 < T) (c : Byte) (x y : Nat) :
    bilinearSum W H T (fun _ => c) x y = 1536 * T * c.toNat := by
  refine (blend_constant 768 (2 * T) _ _ c.toNat (columnTap_weight_lt W x).le (rowTap_weight_lt H y hT).le).trans ?_
  ring

theorem bilinearSum_mono (W H T : Nat) {S S' : Nat → Byte} (h : ∀ i, (S i).toNat ≤ (S' i).toNat) (x y : Nat) :
    bilinearSum W H T S x y ≤ bilinearSum W H T S' x y := by
  simp only [bilinearSum]
  gcongr <;> exact h _

/-- P1: the sum depends on the samples at the taps alone. -/
theorem bilinearSum_congr {W H T x y : Nat} {S S' : Nat → Byte} (h : ∀ i ∈ bilinearTaps W H T x y, S i = S' i) :
    bilinearSum W H T S x y = bilinearSum W H T S' x y := by
  simp only [bilinearTaps, List.forall_mem_cons] at h
  obtain ⟨h00, h10, h01, h11, -⟩ := h
  simp only [bilinearSum, h00, h10, h01, h11]

theorem bilinearNat_congr {W H T x y : Nat} {S S' : Nat → Byte} (h : ∀ i ∈ bilinearTaps W H T x y, S i = S' i) :
    bilinearNat W H T S x y = bilinearNat W H T S' x y := by
  rw [bilinearNat_eq, bilinearNat_eq, bilinearSum_congr h]

/-- P1: no weighted mean of bytes is above 255. -/
theorem bilinearNat_le (W H : Nat) {T : Nat} (hT : 0 < T) (S : Nat → Byte) (x y : Nat) :
    bilinearNat W H T S x y ≤ 255 := by
  have hle : bilinearSum W H T S x y ≤ 1536 * T * 255 := by
    calc bilinearSum W H T S x y
        ≤ bilinearSum W H T (fun _ => 255#8) x y := bilinearSum_mono W H T (fun i => Nat.le_of_lt_succ (S i).isLt) x y
      _ = 1536 * T * 255 := bilinearSum_const W H hT 255#8 x y
  calc bilinearNat W H T S x y
      ≤ (2 * (1536 * T * 255) + 1536 * T) / (2 * (1536 * T)) := by
        rw [bilinearNat_eq]
        gcongr
    _ = 255 := round_exact _ _ (by omega)

theorem toNat_resample_value (W H : Nat) {T : Nat} (hT : 0 < T) (S : Nat → Byte) (x y : Nat) :
    (resample.value W H T S x y).toNat = bilinearNat W H T S x y :=
  (BitVec.toNat_ofNat ..).trans (Nat.mod_eq_of_lt (Nat.lt_succ_of_le (bilinearNat_le W H hT S x y)))

/-- P2. -/
theorem bilinearNat_const (W H : Nat) {T : Nat} (hT : 0 < T) (c : Byte) (x y : Nat) :
    bilinearNat W H T (fun _ => c) x y = c.toNat := by
  rw [bilinearNat_eq, bilinearSum_const W H hT, round_exact _ _ (by omega)]

/-- P3: at unit scale both weights are 0. -/
theorem bilinearNat_unit {H x y : Nat} (S : Nat → Byte) (hH : 0 < H) (hx : x < 384) (hy : y < H) :
    bilinearNat 384 H H S x y = (S (y * 384 + x)).toNat := by
  have hposx : (2 * x + 1) * 384 - 384 = 768 * x := by omega
  have hposy : (2 * y + 1) * H - H = 2 * H * y := by rw [Nat.add_mul, Nat.one_mul, Nat.add_sub_cancel]; ring
  obtain ⟨hlox, hwx⟩ := axisTap_unit (unit := 768) (by decide) hx
  obtain ⟨hloy, hwy⟩ := axisTap_unit (unit := 2 * H) (by omega) hy
  have hsum : bilinearSum 384 H H S x y = 1536 * H * (S (y * 384 + x)).toNat := by
    simp only [bilinearSum, columnTap, rowTap, hposx, hposy, hlox, hwx, hloy, hwy, Nat.sub_zero]
    ring
  rw [bilinearNat_eq, hsum, round_exact _ _ (by omega)]

/-- P1: every tap is a sample of the source. -/
theorem bilinearTaps_lt {W H T x y i : Nat} (hW : 0 < W) (hH : 0 < H) (hT : 0 < T) (hi : i ∈ bilinearTaps W H T x y) :
    i < W * H := by
  have hlox : (columnTap W x).lo ≤ W - 1 := axisTap_lo_le (by decide)
  have hhix : (columnTap W x).hi ≤ W - 1 := axisTap_hi_le
  have hloy : (rowTap H T y).lo ≤ H - 1 := axisTap_lo_le (by omega)
  have hhiy : (rowTap H T y).hi ≤ H - 1 := axisTap_hi_le
  simp only [bilinearTaps, List.mem_cons, List.not_mem_nil, or_false] at hi
  rcases hi with rfl | rfl | rfl | rfl
  · exact sampleIndex_lt hlox hloy hW hH
  · exact sampleIndex_lt hhix hloy hW hH
  · exact sampleIndex_lt hlox hhiy hW hH
  · exact sampleIndex_lt hhix hhiy hW hH

/-- R191: the hardware's kernel has P1, P2 and P3. -/
theorem resample_lawful : Kernel.Lawful resample where
  taps_lt _ _ _ _ _ hW hH _ hy hi := bilinearTaps_lt hW hH (by omega) hi
  depends _ _ _ _ _ _ _ _ _ _ h := congrArg (BitVec.ofNat 8) (bilinearNat_congr h)
  constant W H x y S c _ _ _ hy h := by
    apply BitVec.eq_of_toNat_eq
    rw [toNat_resample_value _ _ (by omega), bilinearNat_congr (S' := fun _ => c) h, bilinearNat_const _ _ (by omega)]
  identity H x y S hH hx hy := by
    apply BitVec.eq_of_toNat_eq
    rw [toNat_resample_value _ _ hH, bilinearNat_unit S hH hx hy]

/-! ### The bytes of a bitmap (R195, R196) -/

/-- Eight equal pixels. -/
theorem packByte_const {bits : Nat → Bool} {p : Bool} (h : ∀ k, k < 8 → bits k = p) :
    packByte bits = if p then 0xFF#8 else 0x00#8 := by
  have hsolid : packByte bits = packByte fun _ => p := by
    unfold packByte
    rw [List.map_congr_left fun k hk => by rw [h k (List.mem_range.mp hk)]]
  rw [hsolid]
  cases p <;> decide

/-- R203: a bitmap of one gray value is solid. -/
theorem bitmap_solid {K : Kernel} {W H T : Nat} {S : Nat → Byte} {c : Byte}
    (h : ∀ x y, x < 384 → y < T → K.value W H T S x y = c) {b : Byte} (hb : b ∈ bitmap K W H T S) :
    b = if 128 ≤ c.toNat then 0x00#8 else 0xFF#8 := by
  simp only [bitmap, packRow, List.mem_flatMap, List.mem_map, List.mem_range] at hb
  obtain ⟨y, hy, j, hj, rfl⟩ := hb
  have hj48 : j < 48 := hj
  rw [packByte_const (p := printBit c) fun k hk => by rw [h _ y (by omega) hy], printBit_iff]
  by_cases hc : 128 ≤ c.toNat
  · simp [hc, show 127 < c.toNat from hc]
  · simp [hc, show c.toNat ≤ 127 by omega]

/-- R203: P1 and P2 make a solid source a bitmap of one gray value. -/
theorem bitmap_solid_of_lawful {K : Kernel} (hK : Kernel.Lawful K) {W H : Nat} {S : Nat → Byte} {c : Byte} (hW : 0 < W)
    (hH : 0 < H) (hS : ∀ i, i < W * H → S i = c) {b : Byte} (hb : b ∈ bitmap K W H (targetHeight W H) S) :
    b = if 128 ≤ c.toNat then 0x00#8 else 0xFF#8 :=
  bitmap_solid (fun x y hx hy =>
    hK.constant W H x y S c hW hH hx hy fun i hi => hS i (hK.taps_lt W H x y i hW hH hx hy hi)) hb

/-- R197: the bytes of a transform that succeeds stand from address 0 on. -/
theorem read_writeRun_zero (sp : Space) (m : Memory) {bs : List Byte} {a : Nat} (h : a < bs.length) :
    (m.writeRun 0 bs).read sp a = bs[a] := by
  simpa using read_writeRun_inside (sp := sp) (m := m) (base := 0) h

/-- R197, R200: the bytes after the bitmap are not written. -/
theorem read_writeRun_bitmap_above (sp : Space) (m : Memory) (K : Kernel) (W H T : Nat) (S : Nat → Byte) {a : Nat}
    (h : 48 * T ≤ a) : (m.writeRun 0 (bitmap K W H T S)).read sp a = m.read sp a :=
  read_writeRun_outside (.inr (by rwa [length_bitmap, Nat.zero_add]))

/-! ### What the step answers (R184, R186, R193, R201) -/

theorem transform_zeroDim {W H : Nat} (h : W = 0 ∨ H = 0) (K : Kernel) (s : State) :
    transform K s W H = .error .zeroDim := if_pos h

theorem transform_bmCapacity {s : State} {W H : Nat} (hW : 0 < W) (hH : 0 < H)
    (h : s.params.bmMaxLines < targetHeight W H) (K : Kernel) : transform K s W H = .error .bmCapacity := by
  unfold transform
  rw [if_neg (by omega), if_pos h]

theorem transform_sourceError {K : Kernel} {s : State} {W H : Nat} {d : ErrDetail} (hW : 0 < W) (hH : 0 < H)
    (hfits : targetHeight W H ≤ s.params.bmMaxLines) (h : sourceError K s W H (targetHeight W H) = some d) :
    transform K s W H = .error d := by
  unfold transform
  rw [if_neg (by omega), if_neg (by omega), h]

/-- R201: without a target line there is nothing to read. -/
theorem sourceReady_of_no_line {W H : Nat} (hW : 0 < W) (hH : 0 < H) (h : H * 384 < W) (s : State) : SourceReady s W H where
  width_pos := hW
  height_pos := hH
  fits := by rw [targetHeight_eq_zero h]; exact Nat.zero_le _
  readable x y i _ hy := by rw [targetHeight_eq_zero h] at hy; omega

/-- A u16 operand that is not 0. -/
theorem toNat_pos_of_ne_zero {v : Half} (h : v ≠ 0#16) : 0 < v.toNat :=
  Nat.pos_of_ne_zero fun h0 => h (BitVec.eq_of_toNat_eq h0)

/-- XFORM of a ready source completes without error. -/
theorem exec_xform_ready {s : State} {sn : Snapshot} (h : s.phase = .busy sn) (hready : SourceReady s sn.width sn.height) :
    exec .xform s = .next (completeOk (transformDone (targetHeight sn.width sn.height)
      (bitmap resample sn.width sn.height (targetHeight sn.width sn.height) (sample s)) s)) :=
  exec_xform_ok h (transform_of_ready hready)

/-- R193: the first failure of ascending reads has no failing tap below it. -/
theorem srcReadError_of_findSome {taps : List Nat} (hasc : taps.Pairwise (· < ·)) {s : State} {d : ErrDetail}
    (h : taps.findSome? (srcReadError s) = some d) :
    ∃ i ∈ taps, srcReadError s i = some d ∧ ∀ j ∈ taps, j < i → srcReadError s j = none := by
  obtain ⟨before, i, after, rfl, hi, hbefore⟩ := List.findSome?_eq_some_iff.mp h
  obtain ⟨-, hafter, -⟩ := List.pairwise_append.mp hasc
  obtain ⟨hrise, -⟩ := List.pairwise_cons.mp hafter
  refine ⟨i, by simp, hi, fun j hj hlt => ?_⟩
  rcases List.mem_append.mp hj with hj | hj
  · exact hbefore j hj
  · rcases List.mem_cons.mp hj with rfl | hj
    · exact absurd hlt (lt_irrefl _)
    · exact absurd hlt (hrise j hj).le.not_gt

/-! ### The statements -/

/-- Settles O15: the floor's two bounds, and 48 bytes a row. -/
theorem targetHeightIsTheExactFloor : Obligations.TargetHeightIsTheExactFloor := by
  intro W H hW _ hH
  refine ⟨rfl, Nat.div_mul_le_self .., (Nat.div_lt_iff_lt_mul hW).mp (Nat.lt_succ_self _), by omega, targetHeight_le hH,
    fun K S => ?_⟩
  rw [length_bitmap]
  ring

/-- Settles O16: both forms have the same numerator over `1536*T`. -/
theorem bilinearIntegerFormIsTheRationalForm : Obligations.BilinearIntegerFormIsTheRationalForm := by
  intro W H T S x y hW hH hT
  have hhalf : bilinearMean W H T S x y + 1 / 2 =
      ((2 * bilinearSum W H T S x y + 1536 * T : Nat) : ℚ) / ((2 * (1536 * T) : Nat) : ℚ) := by
    rw [bilinearMean_eq hW hH hT]
    push_cast
    field_simp
  rw [hhalf, Rat.floor_natCast_div_natCast, bilinearNat_eq, Int.natCast_div]

/-- Settles O17: P1 to P3, and the four taps with their positions clamped over the integers. -/
theorem hardwareKernelIsLawful : Obligations.HardwareKernelIsLawful := by
  refine ⟨resample_lawful, fun W H T S x y hT => ⟨bilinearNat_le W H hT S x y, toNat_resample_value W H hT S x y⟩, ?_⟩
  intro W H T x y i hW hH hT x0 x1 y0 y1
  have hx0 : (columnTap W x).lo = x0 := by
    have h := axisTap_lo_eq_int ((2 * x + 1) * W) 384 768 hW
    push_cast at h
    exact h
  have hy0 : (rowTap H T y).lo = y0 := by
    have h := axisTap_lo_eq_int ((2 * y + 1) * H) T (2 * T) hH
    push_cast at h
    exact h
  have hx1 : (columnTap W x).hi = x1 := congrArg (fun lo => min (lo + 1) (W - 1)) hx0
  have hy1 : (rowTap H T y).hi = y1 := congrArg (fun lo => min (lo + 1) (H - 1)) hy0
  show i ∈ bilinearTaps W H T x y ↔ _
  simp only [bilinearTaps, hx0, hx1, hy0, hy1, List.mem_cons, List.not_mem_nil, or_false]

/-- Settles O18: the state of a transform that succeeds, and its bitmap bit by bit. -/
theorem xformWritesTheThresholdedBitmap : Obligations.XformWritesTheThresholdedBitmap := by
  intro s sn h hready
  refine ⟨_, exec_xform_ready h hready, rfl, rfl, fun x y hx hy => ?_,
    fun a ha => read_writeRun_bitmap_above _ _ _ _ _ _ _ ha⟩
  obtain ⟨b, hb, hbit⟩ := bitmap_bit resample sn.w.toNat sn.h.toNat _ (sample s) hx hy
  obtain ⟨hlt, rfl⟩ := List.getElem?_eq_some_iff.mp hb
  exact (congrArg (BitVec.getLsbD · _) (read_writeRun_zero .bm s.bm hlt)).trans hbit

/-- Settles O19: the two checks on the dimensions, in their order. -/
theorem xformRejectsDimensionsBeforeReading : Obligations.XformRejectsDimensionsBeforeReading := by
  intro s sn h
  refine ⟨fun hzero => exec_xform_error h (transform_zeroDim ?_ _ _), fun hw hh hcap => exec_xform_error h
    (transform_bmCapacity (toNat_pos_of_ne_zero hw) (toNat_pos_of_ne_zero hh) hcap _)⟩
  exact hzero.imp (congrArg BitVec.toNat) (congrArg BitVec.toNat)

/-- Settles O20: the lowest failing tap raises its own error. -/
theorem xformReportsTheLowestFailingTap : Obligations.XformReportsTheLowestFailingTap := by
  intro s sn i h hw hh hfits hi hlow
  have hfails : ∀ d, srcReadError s i = some d → exec .xform s = .next (completeError sn d (transformFailed s)) :=
    fun d hd => exec_xform_error h (transform_sourceError (toNat_pos_of_ne_zero hw) (toNat_pos_of_ne_zero hh) hfits
      (sourceError_of_lowest hi hd fun j hj hlt => srcReadError_none_iff.mpr (hlow j hj hlt)))
  exact ⟨fun hr => hfails .srcUnreadable (by rw [srcReadError, hr]), fun hr => hfails .srcDecode (by rw [srcReadError, hr])⟩

/-- Settles O21: the first failure of the ascending reads is the lowest failing tap. -/
theorem ascendingReadsGiveTheSameError : Obligations.AscendingReadsGiveTheSameError := by
  intro K s W H T taps hasc htaps
  have hall : ∀ i, i ∈ allTaps K W H T ↔ i ∈ taps := fun i => mem_allTaps.trans (htaps i).symm
  cases hfirst : taps.findSome? (srcReadError s) with
  | none => exact sourceError_none_iff.mpr fun i hi => List.findSome?_eq_none_iff.mp hfirst i ((hall i).mp hi)
  | some d =>
    obtain ⟨i, hi, hd, hlow⟩ := srcReadError_of_findSome hasc hfirst
    exact sourceError_of_lowest ((hall i).mpr hi) hd fun j hj => hlow j ((hall j).mp hj)

/-- Settles O22: the source is ready, and a bitmap of no row is a run of no byte. -/
theorem xformOfAZeroHeightSucceeds : Obligations.XformOfAZeroHeightSucceeds := by
  intro s sn h hw hh hlt
  have hok := exec_xform_ready h
    (sourceReady_of_no_line (toNat_pos_of_ne_zero hw) (toNat_pos_of_ne_zero hh) hlt s)
  have hT : targetHeight sn.width sn.height = 0 := targetHeight_eq_zero hlt
  have hbm : s.bm.writeRun 0 (bitmap resample sn.width sn.height 0 (sample s)) = s.bm := writeRun_nil s.bm
  rw [hT, transformDone, hbm] at hok
  exact ⟨hok, by decide, by decide⟩

/-- Settles O23: P1 and P2 for every lawful kernel, and the hardware's is one. -/
theorem solidSourcesGiveSolidBitmaps : Obligations.SolidSourcesGiveSolidBitmaps := by
  refine ⟨fun K W H S c hK hW hH hS b hb => bitmap_solid_of_lawful hK hW hH hS hb, fun s sn c h hready hsrc => ?_⟩
  refine ⟨_, exec_xform_ready h hready, fun a ha => ?_⟩
  have hlt : a < (bitmap resample sn.w.toNat sn.h.toNat (targetHeight sn.w.toNat sn.h.toNat) (sample s)).length := by
    rwa [length_bitmap]
  exact (read_writeRun_zero .bm s.bm hlt).trans (bitmap_solid_of_lawful resample_lawful hready.width_pos
    hready.height_pos (fun i hi => sample_of_ok (hsrc i hi)) (List.getElem_mem hlt))

/-- Settles O24: P3 on every pixel, through the bits of a bitmap. -/
theorem fullWidthBitsDoNotDependOnTheKernel : Obligations.FullWidthBitsDoNotDependOnTheKernel := by
  intro K H S hK hH
  rw [targetHeight_full_width]
  refine ⟨rfl, fun x y hx hy => ?_⟩
  rw [← hK.identity H x y S hH hx hy]
  exact bitmap_bit K 384 H H S hx hy

/-- Settles O25: a failure leaves no valid bitmap, and a success writes only its rows. -/
theorem xformFrame : Obligations.XformFrame := by
  intro s t sn h ht
  rcases exec_xform_cases h with ⟨d, -, e⟩ | ⟨T, bytes, hok, e⟩
  · obtain rfl := Host.Outcome.next.inj (e.symm.trans ht)
    exact ⟨rfl, rfl, rfl, rfl, rfl, rfl, rfl, fun hvalid => absurd hvalid Bool.false_ne_true⟩
  · obtain rfl := Host.Outcome.next.inj (e.symm.trans ht)
    obtain ⟨-, rfl, rfl⟩ := ready_of_transform hok
    exact ⟨rfl, rfl, rfl, rfl, rfl, rfl, rfl, fun _ a ha => read_writeRun_bitmap_above _ _ _ _ _ _ _ ha⟩

end Sys2Proof.Machine
end

section
/-! PROOFS. The stream assembler (42_stream_assembler.md): the blocks in closed form, what GEN does by the one check it makes
after the transform step, what its result depends on, and the statements of this family. -/
namespace Sys2Proof.Machine

/-! ### The blocks (R232, R233, R237) -/

/-- R232: the lines of block `i` of `T` lines. -/
def blockLines (T i : Nat) : Nat := min (T - 255 * i) 255

/-- R233: block `i` of the bitmap rows `row`; `rasterSegments_eq_map` ties it to the model's chunking loop. -/
def blockSegment (row : Nat → List Byte) (T i : Nat) : Segment :=
  .raster 0#8 48 (blockLines T i) ((List.range (blockLines T i)).flatMap fun j => row (255 * i + j))

theorem lt_blockCount_iff {T i : Nat} : i < blockCount T ↔ 255 * i < T := by
  unfold blockCount; omega

theorem rasterSegments_past (row : Nat → List Byte) {T cur : Nat} (h : T ≤ cur) (fuel : Nat) :
    rasterSegments row T fuel cur = [] := by
  cases fuel with
  | zero => rfl
  | succ fuel => simp [rasterSegments, Nat.not_lt.mpr h]

/-- R232: the loop starts its blocks 255 lines apart; the shorter last block ends it. -/
theorem rasterSegments_succ (row : Nat → List Byte) {T i : Nat} (h : 255 * i < T) (fuel : Nat) :
    rasterSegments row T (fuel + 1) (255 * i) = blockSegment row T i :: rasterSegments row T fuel (255 * (i + 1)) := by
  have hnext : rasterSegments row T fuel (255 * i + blockLines T i) = rasterSegments row T fuel (255 * (i + 1)) := by
    by_cases hfull : 255 ≤ T - 255 * i
    · rw [blockLines, min_eq_right hfull, Nat.mul_succ]
    · rw [blockLines, min_eq_left (by omega), rasterSegments_past row (by omega), rasterSegments_past row (by omega)]
  rw [← hnext, rasterSegments, if_pos h]
  rfl

/-- R232, R233: the blocks from block `i` on are the segments of their indices. -/
theorem rasterSegments_from (row : Nat → List Byte) (T : Nat) : ∀ fuel i : Nat, T - 255 * i ≤ fuel →
    rasterSegments row T fuel (255 * i) = (List.range' i (blockCount (T - 255 * i))).map (blockSegment row T) := by
  intro fuel
  induction fuel with
  | zero =>
    intro i h
    rw [show T - 255 * i = 0 by omega]
    rfl
  | succ fuel ih =>
    intro i h
    by_cases hi : 255 * i < T
    · have hcount : blockCount (T - 255 * i) = blockCount (T - 255 * (i + 1)) + 1 := by unfold blockCount; omega
      rw [rasterSegments_succ row hi, ih (i + 1) (by omega), hcount, List.range'_succ, List.map_cons]
    · rw [rasterSegments_past row (by omega), show T - 255 * i = 0 by omega]
      rfl

/-- R232, R233: the blocks of a bitmap, by index. -/
theorem rasterSegments_eq_map (row : Nat → List Byte) (T : Nat) :
    rasterSegments row T T 0 = (List.range (blockCount T)).map (blockSegment row T) := by
  rw [List.range_eq_range']
  exact rasterSegments_from row T T 0 le_rfl

/-- R233: the lines of the first `n` blocks. -/
theorem sum_blockLines (T n : Nat) : ((List.range n).map (blockLines T)).sum = min T (255 * n) := by
  induction n with
  | zero => simp
  | succ n ih =>
    rw [List.sum_range_succ, ih, blockLines]
    omega

theorem blockLines_full {T i : Nat} (h : 255 * (i + 1) ≤ T) : blockLines T i = 255 := by
  unfold blockLines; omega

theorem blockLines_pos_le {T i : Nat} (h : i < blockCount T) : 1 ≤ blockLines T i ∧ blockLines T i ≤ 255 := by
  have := lt_blockCount_iff.mp h
  unfold blockLines; omega

theorem blockSegment_shape {row : Nat → List Byte} (hrow : ∀ r, (row r).length = 48) (T i : Nat) :
    (blockSegment row T i).shape = some (0#8, 48, blockLines T i, 48 * blockLines T i) := by
  simp only [blockSegment, Segment.shape]
  rw [length_flatMap_const _ _ 48 fun j _ => hrow _, List.length_range]

/-- R234: only the rows below `T` are in the blocks. -/
theorem genSegments_congr {row row' : Nat → List Byte} {T : Nat} (h : ∀ r, r < T → row r = row' r) (n : Byte) :
    genSegments row T n = genSegments row' T n := by
  have hblock : ∀ i, blockSegment row T i = blockSegment row' T i := by
    intro i
    have hrows : ((List.range (blockLines T i)).map fun j => row (255 * i + j)) =
        (List.range (blockLines T i)).map fun j => row' (255 * i + j) := by
      refine List.map_congr_left fun j hj => h _ ?_
      rw [List.mem_range, blockLines] at hj
      omega
    simp only [blockSegment, List.flatMap_def, hrows]
  simp only [genSegments, rasterSegments_eq_map, funext hblock]

/-! ### The bytes of a block in the stream (R242) -/

/-- The bytes of block `i`; `blockSegment_bytes` ties them to its segment. -/
def blockFrame (bm : Memory) (T i : Nat) : List Byte :=
  blockHeader (blockLines T i) ++ bm.readRun .bm (48 * (255 * i)) (48 * blockLines T i)

theorem blockSegment_bytes (bm : Memory) (T i : Nat) : (blockSegment (rowsOf bm) T i).bytes = blockFrame bm T i :=
  raster_bytes bm (255 * i) (blockLines T i)

theorem length_blockFrame (bm : Memory) (T i : Nat) : (blockFrame bm T i).length = 8 + 48 * blockLines T i := by
  simp [blockFrame]

theorem blockBytes_eq_flatMap (bm : Memory) (T : Nat) :
    blockBytes bm T = (List.range (blockCount T)).flatMap (blockFrame bm T) := by
  simp only [blockBytes, rasterSegments_eq_map, List.flatMap_map, blockSegment_bytes]

/-- R242: the blocks before block `i` are full, 12248 bytes each. -/
theorem blockBytes_split (bm : Memory) {T i : Nat} (h : i < blockCount T) :
    ∃ before after, blockBytes bm T = before ++ blockFrame bm T i ++ after ∧ before.length = 12248 * i := by
  obtain ⟨m, hm⟩ : ∃ m, blockCount T = i + (m + 1) := ⟨blockCount T - i - 1, by omega⟩
  have hrange : List.range (blockCount T) = List.range i ++ [i] ++ List.range' (i + 1) m := by
    rw [hm, List.range_eq_range', List.range_eq_range', ← List.range'_append_1, List.range'_succ]
    simp
  refine ⟨(List.range i).flatMap (blockFrame bm T), (List.range' (i + 1) m).flatMap (blockFrame bm T), ?_, ?_⟩
  · rw [blockBytes_eq_flatMap, hrange, List.flatMap_append, List.flatMap_append, List.flatMap_singleton]
  · rw [length_flatMap_const _ _ 12248 fun j hj => ?_, List.length_range]
    have hlast := lt_blockCount_iff.mp h
    rw [List.mem_range] at hj
    rw [length_blockFrame, blockLines_full (by omega)]

/-- R242: where block `i` stands in the whole stream. -/
theorem genStream_split_block (bm : Memory) {T i : Nat} (h : i < blockCount T) (n : Byte) :
    ∃ before after, genStream bm T n = before ++ blockFrame bm T i ++ after ∧ before.length = 5 + 12248 * i := by
  obtain ⟨before, after, hsplit, hlen⟩ := blockBytes_split bm h
  refine ⟨initFrame ++ justifyFrame 0x01#8 ++ before, after ++ feedFrame n, ?_, ?_⟩
  · rw [genStream_eq, hsplit]
    simp only [List.append_assoc]
  · simp only [List.length_append, hlen]
    rfl

/-- R162, R230: a block's header, byte by byte. -/
theorem blockHeader_eq {k : Nat} (h : k ≤ 255) :
    blockHeader k = [0x1D#8, 0x76#8, 0x30#8, 0x00#8, 0x30#8, 0x00#8, BitVec.ofNat 8 k, 0x00#8] := by
  have hlo : lo8 (BitVec.ofNat 16 k) = BitVec.ofNat 8 k := by
    rw [lo8_eq, BitVec.toNat_ofNat, Nat.mod_eq_of_lt (by omega), Nat.mod_eq_of_lt (by omega)]
  have hhi : hi8 (BitVec.ofNat 16 k) = 0x00#8 := by
    rw [hi8_eq, BitVec.toNat_ofNat, Nat.mod_eq_of_lt (by omega), Nat.div_eq_of_lt (by omega)]
  simp only [blockHeader, rasterHeader, hlo, hhi]
  rfl

/-- A part of a stream written from address 0 reads back at its offset. -/
theorem readRun_writeRun_part (sp : Space) (m : Memory) (before part after : List Byte) :
    (m.writeRun 0 (before ++ part ++ after)).readRun sp before.length part.length = part := by
  rw [readRun_eq_iff rfl]
  intro k hk
  have hlt : before.length + k < (before ++ part ++ after).length := by simp only [List.length_append]; omega
  rw [read_writeRun_zero sp m hlt, List.getElem_append_left (by simp only [List.length_append]; omega),
    List.getElem_append_right (by omega)]
  simp only [Nat.add_sub_cancel_left]

/-- R233, R242: the header and the data of block `i` in OUT. -/
theorem readRun_genStream_block (m bm : Memory) {T i : Nat} (h : i < blockCount T) (n : Byte) :
    (m.writeRun 0 (genStream bm T n)).readRun .out (5 + 12248 * i) 8 = blockHeader (blockLines T i) ∧
    (m.writeRun 0 (genStream bm T n)).readRun .out (5 + 12248 * i + 8) (48 * blockLines T i) =
      bm.readRun .bm (48 * (255 * i)) (48 * blockLines T i) := by
  obtain ⟨before, after, hsplit, hlen⟩ := genStream_split_block bm h n
  have hframe := readRun_writeRun_part .out m before (blockFrame bm T i) after
  rw [← hsplit, hlen, length_blockFrame, readRun_append] at hframe
  exact List.append_inj hframe (by simp)

/-- R242: the feed frame is the last three bytes in OUT. -/
theorem readRun_genStream_feed (m bm : Memory) (T : Nat) (n : Byte) :
    (m.writeRun 0 (genStream bm T n)).readRun .out (streamLength T - 3) 3 = feedFrame n := by
  have hlen : (initFrame ++ justifyFrame 0x01#8 ++ blockBytes bm T).length = streamLength T - 3 := by
    simp only [List.length_append, length_blockBytes, initFrame, justifyFrame, List.length_cons, List.length_nil,
      streamLength]
    omega
  have hpart := readRun_writeRun_part .out m (initFrame ++ justifyFrame 0x01#8 ++ blockBytes bm T) (feedFrame n) []
  rwa [List.append_nil, ← genStream_eq, hlen] at hpart

/-! ### What GEN does after the transform step (R230, R235, R300) -/

/-- R300: the error GEN reports after a good transform step of `T` lines. Neither BM nor OUT decides it; `assemble_error` and
`assemble_ok` tie it to the model's assembler. -/
def assembleError (cap T : Nat) (fv : Int) : Option ErrDetail :=
  if cap < 5 + 8 * blockCount T + 48 * T then some .outCapacity
  else if ¬ feedInRange fv then some .feedRange
  else if cap < streamLength T then some .outCapacity
  else none

theorem appended_genStream (m bm : Memory) (T : Nat) (n : Byte) :
    appended m (genStream bm T n) = { mem := m.writeRun 0 (genStream bm T n), len := streamLength T } := by
  rw [appended, length_genStream]

section
variable {cap T : Nat} {fv : Int}

theorem assemble_error {d : ErrDetail} (h : assembleError cap T fv = some d) (bm m : Memory) :
    assemble cap bm T fv { mem := m, len := 0 } = .error d := by
  rw [assemble_eq]
  unfold assembleError at h
  split_ifs at h ⊢ <;> cases h <;> rfl

theorem assemble_ok (h : assembleError cap T fv = none) (bm m : Memory) :
    assemble cap bm T fv { mem := m, len := 0 } =
      .ok ({ mem := m.writeRun 0 (genStream bm T (feedByte fv)), len := streamLength T }, blockCount T) := by
  rw [assemble_eq, appended_genStream]
  unfold assembleError at h
  split_ifs at h ⊢
  rfl

theorem assembleError_body_full (h : cap < 5 + 8 * blockCount T + 48 * T) :
    assembleError cap T fv = some .outCapacity := if_pos h

theorem assembleError_feedRange (h : 5 + 8 * blockCount T + 48 * T ≤ cap) (hfv : ¬ feedInRange fv) :
    assembleError cap T fv = some .feedRange := by
  unfold assembleError
  rw [if_neg (Nat.not_lt.mpr h), if_pos hfv]

theorem assembleError_stream_full (hfv : feedInRange fv) (h : cap < streamLength T) :
    assembleError cap T fv = some .outCapacity := by
  unfold assembleError
  rw [if_neg (not_not.mpr hfv), if_pos h, ite_self]

theorem assembleError_none (hfv : feedInRange fv) (h : streamLength T ≤ cap) : assembleError cap T fv = none := by
  have hbody : 5 + 8 * blockCount T + 48 * T ≤ cap := by unfold streamLength at h; omega
  unfold assembleError
  rw [if_neg (Nat.not_lt.mpr hbody), if_neg (not_not.mpr hfv), if_neg (Nat.not_lt.mpr h)]

end

/-- R239: GEN of a bitmap whose stream cannot be assembled. -/
theorem exec_gen_assembleError {s : State} {sn : Snapshot} {T : Nat} {bytes : List Byte} {d : ErrDetail}
    (h : s.phase = .busy sn) (ht : transform resample s sn.width sn.height = .ok (T, bytes))
    (he : assembleError s.params.outCap T sn.genFeed = some d) :
    exec .gen s = .next (completeError sn d (genFailed (transformDone T bytes s))) :=
  exec_gen_assemble_error h ht (assemble_error he _ _)

/-- R236: GEN of a bitmap whose stream is assembled. -/
theorem exec_gen_stream {s : State} {sn : Snapshot} {T : Nat} {bytes : List Byte}
    (h : s.phase = .busy sn) (ht : transform resample s sn.width sn.height = .ok (T, bytes))
    (he : assembleError s.params.outCap T sn.genFeed = none) :
    exec .gen s = .next (completeOk (genDone
      { mem := s.out.writeRun 0 (genStream (s.bm.writeRun 0 bytes) T (feedByte sn.genFeed)), len := streamLength T }
      (blockCount T) (transformDone T bytes s))) :=
  exec_gen_ok h ht (assemble_ok he _ _)

/-- R236: GEN with what it needs. -/
theorem exec_gen_ready {s : State} {sn : Snapshot} {T : Nat} {bytes : List Byte} (h : s.phase = .busy sn)
    (hready : GenReady s sn) (hT : targetHeight sn.w.toNat sn.h.toNat = T)
    (hbytes : bitmap resample sn.w.toNat sn.h.toNat T (sample s) = bytes) :
    exec .gen s = .next (completeOk (genDone
      { mem := s.out.writeRun 0 (genStream (s.bm.writeRun 0 bytes) T (BitVec.ofNat 8 sn.genFeed.toNat))
        len := streamLength T }
      (blockCount T) (transformDone T bytes s))) := by
  subst hT hbytes
  rw [← feedByte_eq hready.feed.1]
  exact exec_gen_stream h (transform_of_ready hready.source) (assembleError_none hready.feed hready.capacity)

/-- R236: the stream reads back from address 0. -/
theorem readRun_genStream (m bm : Memory) (T : Nat) (n : Byte) :
    (m.writeRun 0 (genStream bm T n)).readRun .out 0 (streamLength T) = genStream bm T n := by
  simpa using readRun_writeRun_same .out m 0 (genStream bm T n)

/-- R236: the OUT bytes above the stream are not written. -/
theorem read_genStream_above (m bm : Memory) {T a : Nat} (n : Byte) (h : streamLength T ≤ a) :
    (m.writeRun 0 (genStream bm T n)).read .out a = m.read .out a :=
  read_writeRun_outside (.inr (by rwa [length_genStream, Nat.zero_add]))

/-! ### What GEN depends on (R46, R240, R243) -/

/-- The transform step reads the parameters, the source port and the races alone. -/
theorem transform_congr {s s' : State} (hp : s'.params = s.params) (hsrc : s'.src = s.src) (hport : s'.port = s.port)
    (hr : s'.raced = s.raced) (K : Kernel) (W H : Nat) : transform K s' W H = transform K s W H := by
  have hread : ∀ i, srcRead s' i = srcRead s i := fun i => srcRead_congr hp (by rw [hr]) hport (by rw [hsrc])
  have herr : srcReadError s' = srcReadError s := by funext i; simp only [srcReadError, hread]
  have hsample : sample s' = sample s := by funext i; simp only [sample, hread]
  simp only [transform, sourceError, lowestFailingTap, hp, herr, hsample]

/-- R243: the stream depends on the bitmap bytes, and not on what BM held before. -/
theorem genStream_writeRun (m m' : Memory) {T : Nat} {bytes : List Byte} (h : bytes.length = 48 * T) (n : Byte) :
    genStream (m.writeRun 0 bytes) T n = genStream (m'.writeRun 0 bytes) T n := by
  have hrow : ∀ r, r < T → rowsOf (m.writeRun 0 bytes) r = rowsOf (m'.writeRun 0 bytes) r := fun r hr =>
    readRun_congr fun a _ ha => by
      have hlt : a < bytes.length := by omega
      rw [read_writeRun_zero .bm m hlt, read_writeRun_zero .bm m' hlt]
  rw [genStream, genSegments_congr hrow, genStream]

theorem readRun_writeRun_zero (sp : Space) (m : Memory) {bytes : List Byte} {len : Nat} (h : bytes.length = len) :
    (m.writeRun 0 bytes).readRun sp 0 len = bytes := by
  subst h
  exact readRun_writeRun_same sp m 0 bytes

/-- R200: a transform that succeeds gives 48 bytes for each target line. -/
theorem length_of_transform {s : State} {W H T : Nat} {bytes : List Byte}
    (h : transform resample s W H = .ok (T, bytes)) : bytes.length = 48 * T := by
  obtain ⟨-, -, rfl⟩ := ready_of_transform h
  exact length_bitmap ..

/-! ### FEED_RANGE (R231) -/

theorem errDetail_of_code_one {d : ErrDetail} (h : d.code = 1#8) : d = .feedRange := by
  revert h
  cases d <;> decide

/-- R194, R300: no transform step raises FEED_RANGE. -/
theorem transform_ne_feedRange (K : Kernel) (s : State) (W H : Nat) : transform K s W H ≠ .error .feedRange := by
  intro hfeed
  rcases transform_cases K s W H with ⟨-, e⟩ | ⟨-, -, -, e⟩ | ⟨-, -, -, d, hd, e⟩ | ⟨-, -, -, -, e⟩
  · cases e.symm.trans hfeed
  · cases e.symm.trans hfeed
  · obtain ⟨i, -, hi, -⟩ := sourceError_some hd
    rcases srcReadError_detail hi with rfl | rfl
    · cases e.symm.trans hfeed
    · cases e.symm.trans hfeed
  · cases e.symm.trans hfeed

theorem genFeed_default {sn : Snapshot} (h : sn.feedDefault = true) : sn.genFeed = 4 := if_pos h

/-! ### The statements -/

/-- Settles O26: the state of a GEN that succeeds, and its stream read back from address 0. -/
theorem genBuildsTheWholeStream : Obligations.GenBuildsTheWholeStream := by
  intro s sn h hready
  refine ⟨_, exec_gen_ready h hready rfl rfl, rfl, rfl, readRun_genStream s.out _ _ _,
    fun a ha => read_genStream_above s.out _ _ ha, fun x hx => ?_⟩
  obtain rfl := Host.Outcome.next.inj ((exec_xform_ready h hready.source).symm.trans hx)
  rfl

/-- Settles O28: the declared counts are the lines of the blocks by index. -/
theorem blocksDeclareTheLinesOfTheBitmap : Obligations.BlocksDeclareTheLinesOfTheBitmap := by
  intro row T hrow
  refine ⟨(List.range (blockCount T)).map (blockLines T), ?_, by simp [blockCount], fun k hk => ?_, ?_, fun hmul => ?_⟩
  · simp only [rasterSegments_eq_map, List.map_map, Function.comp_def, blockSegment_shape hrow]
  · obtain ⟨i, hi, rfl⟩ := List.mem_map.mp hk
    exact blockLines_pos_le (List.mem_range.mp hi)
  · rw [sum_blockLines]
    unfold blockCount
    omega
  · have hcount : blockCount T = T / 255 := by unfold blockCount; omega
    rw [List.eq_replicate_iff]
    refine ⟨by simp [hcount], fun k hk => ?_⟩
    obtain ⟨i, hi, rfl⟩ := List.mem_map.mp hk
    rw [List.mem_range, hcount] at hi
    exact blockLines_full (by omega)

/-- Settles O29: the stream split at block `i` and before its last frame. -/
theorem genBlockOffsets : Obligations.GenBlockOffsets := by
  intro s sn h hready
  refine ⟨_, exec_gen_ready h hready rfl rfl, fun i hi => ?_, readRun_genStream_feed s.out _ _ _⟩
  obtain ⟨hheader, hdata⟩ := readRun_genStream_block s.out
    (s.bm.writeRun 0 (bitmap resample sn.w.toNat sn.h.toNat (targetHeight sn.w.toNat sn.h.toNat) (sample s))) hi
    (BitVec.ofNat 8 sn.genFeed.toNat)
  refine ⟨hheader.trans (blockHeader_eq (blockLines_pos_le hi).2), fun j hj => ?_⟩
  have hbyte := (readRun_eq_iff (by simp)).mp hdata j (by rw [length_readRun]; exact hj)
  rwa [getElem_readRun] at hbyte

/-- Settles O30: the source is ready, a bitmap of no row is a run of no byte, and there is no block. -/
theorem genOfAZeroHeightEmitsEightBytes : Obligations.GenOfAZeroHeightEmitsEightBytes := by
  intro s sn h hw hh hlt hcap hlow hhigh
  have hT : targetHeight sn.w.toNat sn.h.toNat = 0 := targetHeight_eq_zero hlt
  have hready : GenReady s sn := {
    source := sourceReady_of_no_line (toNat_pos_of_ne_zero hw) (toNat_pos_of_ne_zero hh) hlt s
    feed := ⟨hlow, hhigh⟩
    capacity := by rw [hT]; exact hcap }
  exact ⟨_, exec_gen_ready (bytes := []) h hready hT rfl, rfl, writeRun_nil s.bm, readRun_genStream s.out _ 0 _⟩

/-- Settles O31: detail 1 is FEED_RANGE alone, which the default's 4 is no cause of. -/
theorem genTakesTheDefaultFeed : Obligations.GenTakesTheDefaultFeed := by
  intro s sn h
  refine ⟨rfl, fun hdef hinfo t ht hone => ?_⟩
  rcases exec_gen_cases h with ⟨d, hx, e⟩ | ⟨T, bytes, d, -, hd, e⟩ | ⟨T, bytes, -, -, -, e⟩
  · obtain rfl := Host.Outcome.next.inj (e.symm.trans ht)
    obtain rfl := errDetail_of_code_one hone
    exact transform_ne_feedRange _ _ _ _ hx
  · obtain rfl := Host.Outcome.next.inj (e.symm.trans ht)
    obtain rfl := errDetail_of_code_one hone
    rcases hd with ⟨hne, -⟩ | ⟨-, -, hrange⟩
    · cases hne
    · exact hrange (by rw [genFeed_default hdef]; decide)
  · obtain rfl := Host.Outcome.next.inj (e.symm.trans ht)
    exact hinfo hone

/-- Settles O32: an XFORM that sets ERR has failed in the transform step, and GEN takes the same step. -/
theorem genReportsTheTransformError : Obligations.GenReportsTheTransformError := by
  intro s x sn h hnoerr hx herr
  rcases exec_xform_cases h with ⟨d, htr, e⟩ | ⟨T, bytes, -, e⟩
  · obtain rfl := Host.Outcome.next.inj (e.symm.trans hx)
    exact exec_gen_transform_error h htr
  · obtain rfl := Host.Outcome.next.inj (e.symm.trans hx)
    exact absurd (hnoerr.symm.trans herr) Bool.false_ne_true

/-- Settles O33: the three checks after a good transform step, in their order. -/
theorem genAssemblyErrorsInOrder : Obligations.GenAssemblyErrorsInOrder := by
  rintro s sn T h hsource rfl
  refine ⟨_, exec_xform_ready h hsource, fun code detail hcase => ?_⟩
  have htr := transform_of_ready hsource
  rcases hcase with ⟨hfull, rfl, rfl⟩ | ⟨hbody, hrange, rfl, rfl⟩ | ⟨-, hlow, hhigh, hfull, rfl, rfl⟩
  · exact exec_gen_assembleError h htr (assembleError_body_full hfull)
  · exact exec_gen_assembleError h htr (assembleError_feedRange hbody fun ⟨hlow, hhigh⟩ => by omega)
  · exact exec_gen_assembleError h htr (assembleError_stream_full ⟨hlow, hhigh⟩ hfull)

/-- Settles O34: both engines take the same branch of GEN, with the same bitmap bytes and the same stream. -/
theorem genDependsOnItsOperandsAndSourceAlone : Obligations.GenDependsOnItsOperandsAndSourceAlone := by
  intro s1 s2 t1 t2 sn1 sn2 h1 h2 hparams hsrc hport hraced hw hh hfeed hdef he1 he2 hd1 hd2 ht1 ht2
  have hgen : sn2.genFeed = sn1.genFeed := by
    simp only [Snapshot.genFeed, Snapshot.feedLines, hfeed, hdef]
  have htr : transform resample s2 sn2.width sn2.height = transform resample s1 sn1.width sn1.height := by
    rw [← transform_congr hparams hsrc hport hraced]
    simp only [Snapshot.width, Snapshot.height, hw, hh]
  have hasm : ∀ T, assembleError s2.params.outCap T sn2.genFeed = assembleError s1.params.outCap T sn1.genFeed :=
    fun T => by rw [hparams, hgen]
  cases hx : transform resample s1 sn1.width sn1.height with
  | error d =>
    obtain rfl := Host.Outcome.next.inj ((exec_gen_transform_error h1 hx).symm.trans ht1)
    obtain rfl := Host.Outcome.next.inj ((exec_gen_transform_error h2 (htr.trans hx)).symm.trans ht2)
    exact ⟨rfl, rfl, rfl, rfl, hd1.trans hd2.symm, rfl, fun _ => ⟨rfl, rfl⟩, rfl, rfl⟩
  | ok result =>
    obtain ⟨T, bytes⟩ := result
    have hlen := length_of_transform hx
    have hbm : (s1.bm.writeRun 0 bytes).readRun .bm 0 (48 * T) = (s2.bm.writeRun 0 bytes).readRun .bm 0 (48 * T) := by
      rw [readRun_writeRun_zero _ _ hlen, readRun_writeRun_zero _ _ hlen]
    cases ha : assembleError s1.params.outCap T sn1.genFeed with
    | some d =>
      obtain rfl := Host.Outcome.next.inj ((exec_gen_assembleError h1 hx ha).symm.trans ht1)
      obtain rfl := Host.Outcome.next.inj
        ((exec_gen_assembleError h2 (htr.trans hx) ((hasm T).trans ha)).symm.trans ht2)
      exact ⟨rfl, rfl, rfl, rfl, hd1.trans hd2.symm, rfl, fun _ => ⟨rfl, rfl⟩, rfl, hbm⟩
    | none =>
      obtain rfl := Host.Outcome.next.inj ((exec_gen_stream h1 hx ha).symm.trans ht1)
      obtain rfl := Host.Outcome.next.inj ((exec_gen_stream h2 (htr.trans hx) ((hasm T).trans ha)).symm.trans ht2)
      have hstream : genStream (s1.bm.writeRun 0 bytes) T (feedByte sn1.genFeed) =
          genStream (s2.bm.writeRun 0 bytes) T (feedByte sn2.genFeed) := by
        rw [hgen]; exact genStream_writeRun s1.bm s2.bm hlen _
      have hout := (readRun_genStream s1.out _ T _).trans (hstream.trans (readRun_genStream s2.out _ T _).symm)
      exact ⟨rfl, rfl, rfl, rfl, rfl, he1.trans he2.symm, fun herr => absurd (he1.symm.trans herr) Bool.false_ne_true,
        hout, hbm⟩

/-- Settles O35: a failed transform leaves no valid bitmap, every failure sets ERR, and a success writes its own bytes only. -/
theorem genFrame : Obligations.GenFrame := by
  intro s t sn h hnoerr ht
  have habove : ∀ T bytes, transform resample s sn.width sn.height = .ok (T, bytes) →
      ∀ a, 48 * targetHeight sn.w.toNat sn.h.toNat ≤ a → (s.bm.writeRun 0 bytes).read .bm a = s.bm.read .bm a := by
    intro T bytes hx a ha
    obtain ⟨-, rfl, rfl⟩ := ready_of_transform hx
    exact read_writeRun_bitmap_above _ _ _ _ _ _ _ ha
  rcases exec_gen_cases h with ⟨d, -, e⟩ | ⟨T, bytes, d, hx, -, e⟩ | ⟨T, bytes, hx, -, -, e⟩
  · obtain rfl := Host.Outcome.next.inj (e.symm.trans ht)
    exact ⟨rfl, rfl, rfl, rfl, rfl, rfl, fun hvalid => absurd hvalid Bool.false_ne_true,
      fun hok => absurd hok.symm Bool.false_ne_true⟩
  · obtain rfl := Host.Outcome.next.inj (e.symm.trans ht)
    exact ⟨rfl, rfl, rfl, rfl, rfl, rfl, fun _ => habove T bytes hx, fun hok => absurd hok.symm Bool.false_ne_true⟩
  · obtain rfl := Host.Outcome.next.inj (e.symm.trans ht)
    obtain ⟨-, hT, -⟩ := ready_of_transform hx
    exact ⟨rfl, rfl, rfl, rfl, rfl, rfl, fun _ => habove T bytes hx,
      fun _ a ha => read_genStream_above s.out _ _ (by rw [hT]; exact ha)⟩

end Sys2Proof.Machine
end

section
/-! PROOFS. Command control (43_control.md): what a command body leaves before it completes, what each operation of a step does
to the invariant, where a host statement stops, and the statements of this family. -/
namespace Sys2Proof.Machine

/-! ### What a command leaves before it completes (R273, R274) -/

/-- The states a command body leaves behind just before its completion; `engineTurn_completes` ties it to the engine's turn. -/
inductive BodyLeaves (s : State) (sn : Snapshot) : State → Prop where
  /-- a word that fails Decode, an illegal operand, or a frame that does not fit (R142) -/
  | nothing : BodyLeaves s sn s
  /-- R141 -/
  | frame (f : List Byte) : s.regs.outLen + f.length ≤ s.params.outCap → BodyLeaves s sn { s with
      out := s.out.writeRun s.regs.outLen f
      regs := { s.regs with outLen := s.regs.outLen + f.length } }
  /-- R275 -/
  | cleared : BodyLeaves s sn { s with regs := { s.regs with outLen := 0 } }
  /-- R198 -/
  | noBitmap : BodyLeaves s sn (transformFailed s)
  /-- R197 -/
  | bitmap {T : Nat} {bytes : List Byte} : transform resample s sn.width sn.height = .ok (T, bytes) →
      BodyLeaves s sn (transformDone T bytes s)
  /-- R239 -/
  | noStream {u : State} : BodyLeaves s sn u → BodyLeaves s sn (genFailed u)
  /-- R236 -/
  | stream {T : Nat} {bytes : List Byte} (n : Byte) : transform resample s sn.width sn.height = .ok (T, bytes) →
      streamLength T ≤ s.params.outCap → BodyLeaves s sn (genDone
        (appended s.out (genStream (s.bm.writeRun 0 bytes) T n)) (blockCount T) (transformDone T bytes s))

/-- The completion of a command whose body has left the state `u` (R273, R274). -/
def Completes (sn : Snapshot) (u t : State) : Prop := t = completeOk u ∨ ∃ d, t = completeError sn d u

theorem appendFrame_completes (f : List Byte) (sn : Snapshot) (s : State) :
    ∃ u, BodyLeaves s sn u ∧ Completes sn u (appendFrame f sn s) := by
  rcases appendFrame_cases f sn s with ⟨hfits, e⟩ | ⟨-, e⟩
  · exact ⟨_, .frame f hfits, .inl e⟩
  · exact ⟨s, .nothing, .inr ⟨_, e⟩⟩

section
variable {s : State} {sn : Snapshot}

theorem exec_encoder_completes {i : Instr} (h : s.phase = .busy sn)
    (hi : i = .init ∨ (∃ pos, i = .justify pos) ∨ i = .feed ∨ ∃ mode, i = .rhdr mode) :
    ∃ t u, exec i s = .next t ∧ BodyLeaves s sn u ∧ Completes sn u t := by
  cases hf : encoderFrame sn i with
  | none =>
    obtain ⟨d, e⟩ := exec_encoder_none h hi hf
    exact ⟨_, s, e, .nothing, .inr ⟨d, rfl⟩⟩
  | some f =>
    obtain ⟨u, hu⟩ := appendFrame_completes f sn s
    exact ⟨_, u, exec_encoder h hf, hu⟩

theorem exec_gen_completes (h : s.phase = .busy sn) :
    ∃ t u, exec .gen s = .next t ∧ BodyLeaves s sn u ∧ Completes sn u t := by
  rcases exec_gen_cases h with ⟨d, -, e⟩ | ⟨T, bytes, d, hx, -, e⟩ | ⟨T, bytes, hx, -, hcap, e⟩
  · exact ⟨_, _, e, .noStream .noBitmap, .inr ⟨d, rfl⟩⟩
  · exact ⟨_, _, e, .noStream (.bitmap hx), .inr ⟨d, rfl⟩⟩
  · exact ⟨_, _, e, .stream _ hx hcap, .inl rfl⟩

/-- R276: every command runs to its completion. -/
theorem exec_completes (h : s.phase = .busy sn) (i : Instr) :
    ∃ t u, exec i s = .next t ∧ BodyLeaves s sn u ∧ Completes sn u t := by
  cases i with
  | init => exact exec_encoder_completes h (.inl rfl)
  | justify pos => exact exec_encoder_completes h (.inr (.inl ⟨pos, rfl⟩))
  | feed => exact exec_encoder_completes h (.inr (.inr (.inl rfl)))
  | rhdr mode => exact exec_encoder_completes h (.inr (.inr (.inr ⟨mode, rfl⟩)))
  | xform =>
    rcases exec_xform_cases h with ⟨d, -, e⟩ | ⟨T, bytes, hx, e⟩
    · exact ⟨_, _, e, .noBitmap, .inr ⟨d, rfl⟩⟩
    · exact ⟨_, _, e, .bitmap hx, .inl rfl⟩
  | gen => exact exec_gen_completes h
  | clear => exact ⟨_, _, exec_clear h, .cleared, .inl rfl⟩

/-- R113, R276: a Busy engine's turn is the completion of its command, Decode failures included. -/
theorem engineTurn_completes (h : s.phase = .busy sn) :
    ∃ t u, engineTurn s = .next t ∧ BodyLeaves s sn u ∧ Completes sn u t := by
  cases hd : decodeWord sn.cmd with
  | error e => exact ⟨_, s, engineTurn_error h hd, .nothing, .inr ⟨_, rfl⟩⟩
  | ok i =>
    rw [engineTurn_ok h hd]
    exact exec_completes h i

/-- R290: the engine never stops the machine. -/
theorem engineTurn_next (s : State) : ∃ t, engineTurn s = .next t := by
  cases h : s.phase with
  | idle => exact ⟨s, engineTurn_idle h⟩
  | busy sn =>
    obtain ⟨t, -, e, -⟩ := engineTurn_completes h
    exact ⟨t, e⟩

/-- A command body writes neither the phase nor CMD, DONE, ERR and ERR_INFO: its completion does. -/
theorem BodyLeaves.control {u : State} (h : BodyLeaves s sn u) : u.phase = s.phase ∧ u.regs.cmd = s.regs.cmd ∧
    u.regs.done = s.regs.done ∧ u.regs.err = s.regs.err ∧ u.regs.errInfo = s.regs.errInfo := by
  induction h with
  | noStream _ ih => exact ih
  | nothing | frame | cleared | noBitmap | bitmap | stream => exact ⟨rfl, rfl, rfl, rfl, rfl⟩

end

/-- R291, R292: the kind and the detail of an error, as numbers. -/
theorem errDetail_codes (d : ErrDetail) : (d.kind.code.toNat, d.code.toNat) ∈
    [(1, 1), (2, 2), (2, 3), (3, 4), (4, 5), (4, 6), (4, 7), (5, 8), (5, 9)] := by
  cases d <;> decide

/-! ### The invariant: the host and the world outside -/

section
variable {s : State} (h : Inv s)
include h

theorem Inv.withSched (sched : List Turn) : Inv { s with sched := sched } := { h with }

theorem Inv.withPort (port : List (Nat × SrcAnswer)) : Inv { s with port := port } := { h with }

theorem Inv.drawn (n : Nat) : Inv (s.drawn n) := { h with }

theorem Inv.jump (k : Nat) : Inv (s.jump k) := { h with }

theorem Inv.bind (name : Nat) (v : Word) : Inv (s.bind name v) :=
  { h with names_rising := rising_putRun h.names_rising name [v] }

end

/-! ### The invariant: the host's accesses -/

section
variable {s : State} (h : Inv s)
include h

theorem Inv.softReset : Inv (softReset s) :=
  { params_wf := h.params_wf, src_wf := h.src_wf, names_rising := h.names_rising, src_bound := h.src_bound
    bm_wf := unspecified_wf _, out_wf := unspecified_wf _, raced_rising := .nil, bm_bound := nofun, out_bound := nofun
    raced_bound := nofun, bm_complete := nofun, out_complete := nofun, outLen_le := Nat.zero_le _, bmH_le := Nat.zero_le _
    bmH_max := Nat.zero_le _, blocks_max := Nat.zero_le _, bmH_invalid := fun _ => rfl, info_clear := fun _ => rfl
    info_legal := nofun, not_both := nofun, busy_flags := nofun, idle_raced := fun _ => rfl }

theorem Inv.powerOn : Inv (powerOn s) := { h.softReset with src_wf := unspecified_wf _, src_bound := nofun }

theorem Inv.accept (herr : s.regs.err = false) (w : Word) : Inv (accept w s) :=
  { h with
    raced_rising := .nil, raced_bound := nofun, idle_raced := nofun
    info_legal := fun herr' => absurd (herr.symm.trans herr') Bool.false_ne_true
    not_both := nofun
    busy_flags := fun sn hsn => by
      obtain rfl := Phase.busy.inj hsn
      exact ⟨rfl, herr, rfl⟩ }

theorem Inv.writeCmd (w : Word) : Inv (writeCmd w s) := by
  by_cases hreject : s.busy = true ∨ s.regs.err = true
  · rw [writeCmd_reject hreject]
    exact { h with }
  · simp only [not_or, Bool.not_eq_true] at hreject
    obtain ⟨hb, herr⟩ := hreject
    rw [writeCmd_accept hb herr]
    exact h.accept herr w

/-- R298: the return from an error clears ERR and ERR_INFO together. -/
theorem Inv.returnFromError : Inv { s with regs := returnFromError s.regs } :=
  { h with
    info_clear := fun _ => rfl, info_legal := nofun
    not_both := fun ⟨_, herr⟩ => nomatch herr
    busy_flags := fun sn hsn => by
      obtain ⟨hdone, -, hcmd⟩ := h.busy_flags sn hsn
      exact ⟨hdone, rfl, hcmd⟩ }

theorem Inv.clearDone {done : Bool} (hd : done = true → s.regs.done = true) (reject : Bool) :
    Inv { s with regs := { s.regs with done := done, reject := reject } } :=
  { h with
    not_both := fun ⟨hdone, herr⟩ => h.not_both ⟨hd hdone, herr⟩
    busy_flags := fun sn hsn => by
      obtain ⟨hdone, hrest⟩ := h.busy_flags sn hsn
      exact ⟨Bool.eq_false_iff.mpr fun hset => Bool.false_ne_true (hdone.symm.trans (hd hset)), hrest⟩ }

theorem Inv.writeStatus (v : Word) : Inv { s with regs := writeStatus v s.regs } := by
  have hd : (s.regs.done && !v.getLsbD 1) = true → s.regs.done = true := fun hand => (Bool.and_eq_true_iff.mp hand).1
  unfold Machine.writeStatus
  split
  · exact h.returnFromError.clearDone hd _
  · exact h.clearDone hd _

theorem Inv.writeCtrl (v : Word) : Inv (writeCtrl v s) := by
  cases hv : v.getLsbD 31 with
  | true => rw [writeCtrl_reset s hv]; exact h.softReset
  | false => rw [writeCtrl_fields s hv]; exact { h with }

theorem Inv.regWrite (v : Word) (r : Reg) : Inv (regWrite v s r) := by
  cases r with
  | ctrl => exact h.writeCtrl v
  | status => exact h.writeStatus v
  | cmd => exact h.writeCmd v
  | srcW | srcH | feed | hdrWb | hdrLines => exact { h with }
  | id | errInfo | bmH | outLen | blocks | rsv34 | rsv38 | rsv3C => exact h

/-- R82, R97: only a Busy engine's races grow. -/
theorem Inv.srcWrite {addr : Nat} {bs : List Byte} (hcap : addr + bs.length ≤ s.params.srcCap) :
    Inv (srcWrite addr bs s) := by
  have hsrc : Inv { s with src := s.src.writeRun addr bs } :=
    { h with src_wf := writeRun_wf h.src_wf addr bs, src_bound := putRun_below h.src_bound hcap }
  cases hb : s.busy with
  | false => rwa [srcWrite_idle hb]
  | true =>
    rw [srcWrite_busy hb]
    obtain ⟨sn, hsn⟩ := (busy_iff s).mp hb
    exact { hsrc with
      raced_rising := rising_putRun h.raced_rising ..
      raced_bound := putRun_below h.raced_bound (by simpa using hcap)
      idle_raced := fun hidle => nomatch hsn.symm.trans hidle }

theorem Inv.hostRead {u : State} {sp : Space} {addr n : Nat} {v : Word} (hr : hostRead s sp addr n = .ok (v, u)) :
    Inv u := by
  rcases hostRead_state hr with rfl | rfl
  · exact h
  · exact h.drawn 1

theorem Inv.hostWrite {u : State} {sp : Space} {addr n : Nat} {v : Word} (hw : hostWrite s sp addr n v = .ok u) :
    Inv u := by
  have hlegal := (hostWrite_ok_iff s sp addr n v).mp ⟨u, hw⟩
  cases sp with
  | reg =>
    obtain ⟨rfl, haddr⟩ := hlegal
    obtain ⟨r, hr⟩ := (regAt_iff addr).mpr haddr
    rw [offset_of_regAt hr, hostWrite_reg] at hw
    exact Except.ok.inj hw ▸ h.regWrite v r
  | src =>
    rw [hostWrite_src hlegal.1 hlegal.2] at hw
    exact Except.ok.inj hw ▸ h.srcWrite (by rw [length_leBytes]; exact hlegal.2)
  | bm =>
    rw [hostWrite_result (.inl rfl) hlegal.1 hlegal.2] at hw
    exact Except.ok.inj hw ▸ h
  | out =>
    rw [hostWrite_result (.inr rfl) hlegal.1 hlegal.2] at hw
    exact Except.ok.inj hw ▸ h

end

/-! ### The invariant: the engine -/

/-- A run written where the complete part of a memory ends leaves a longer complete part. -/
theorem listed_writeRun_below {m : Memory} {base : Nat} (h : ∀ a, a < base → m.listed a = true) (bs : List Byte) :
    ∀ a, a < base + bs.length → (m.writeRun base bs).listed a = true := by
  intro a ha
  rw [listed_writeRun]
  by_cases hb : a < base
  · rw [h a hb, Bool.or_true]
  · have hin : base ≤ a ∧ a < base + bs.length := by omega
    rw [decide_eq_true hin, Bool.true_or]

section
variable {s : State} (h : Inv s)
include h

/-- R49, R50: a stream that grows by a run that fits stays complete. -/
theorem Inv.appendOut {bs : List Byte} (hcap : s.regs.outLen + bs.length ≤ s.params.outCap) : Inv { s with
    out := s.out.writeRun s.regs.outLen bs
    regs := { s.regs with outLen := s.regs.outLen + bs.length } } :=
  { h with
    out_wf := writeRun_wf h.out_wf ..
    out_bound := putRun_below h.out_bound hcap
    out_complete := listed_writeRun_below h.out_complete bs
    outLen_le := hcap }

theorem Inv.emptyStream : Inv { s with regs := { s.regs with outLen := 0 } } :=
  { h with out_complete := nofun, outLen_le := Nat.zero_le _ }

theorem Inv.transformFailed : Inv (transformFailed s) :=
  { h with
    bm_wf := unspecified_wf _, bm_bound := nofun, bm_complete := nofun, bmH_le := Nat.zero_le _, bmH_max := Nat.zero_le _
    bmH_invalid := fun _ => rfl }

/-- R44, R51, R197: the bitmap of a transform step that succeeds is complete and fits. -/
theorem Inv.transformDone {sn : Snapshot} {T : Nat} {bytes : List Byte}
    (ht : transform resample s sn.width sn.height = .ok (T, bytes)) : Inv (transformDone T bytes s) := by
  have hlen := length_of_transform ht
  obtain ⟨hready, rfl, -⟩ := ready_of_transform ht
  have hfits : 0 + bytes.length ≤ 48 * s.params.bmMaxLines := by
    have := hready.fits
    omega
  have hcomplete := listed_writeRun_below (m := s.bm) (fun a ha => absurd ha a.not_lt_zero) bytes
  exact { h with
    bm_wf := writeRun_wf h.bm_wf ..
    bm_bound := putRun_below h.bm_bound hfits
    bm_complete := fun a ha => hcomplete a (by rw [hlen, Nat.zero_add]; exact ha)
    bmH_le := hready.fits
    bmH_max := targetHeight_le sn.h.isLt
    bmH_invalid := nofun }

theorem Inv.genFailed : Inv (genFailed s) :=
  { h with
    out_wf := unspecified_wf _, out_bound := nofun, out_complete := nofun, outLen_le := Nat.zero_le _
    blocks_max := Nat.zero_le _ }

/-- R49, R52, R236: the stream of a GEN that succeeds is complete and fits. -/
theorem Inv.genDone {bs : List Byte} {blocks : Nat} (hcap : bs.length ≤ s.params.outCap) (hblocks : blocks ≤ 98688) :
    Inv (genDone (appended s.out bs) blocks s) := by
  have happended := h.emptyStream.appendOut (bs := bs) (by simpa using hcap)
  simp only [Nat.zero_add] at happended
  exact { happended with blocks_max := hblocks }

theorem Inv.bodyLeaves {sn : Snapshot} {u : State} (hu : BodyLeaves s sn u) : Inv u := by
  induction hu with
  | nothing => exact h
  | frame f hcap => exact h.appendOut hcap
  | cleared => exact h.emptyStream
  | noBitmap => exact h.transformFailed
  | bitmap ht => exact h.transformDone ht
  | noStream _ ih => exact ih.genFailed
  | @stream T bytes n ht hcap =>
    have hT : T ≤ 25165440 := (h.transformDone ht).bmH_max
    have hblocks : blockCount T ≤ 98688 := by unfold blockCount; omega
    exact (h.transformDone ht).genDone (by rw [length_genStream]; exact hcap) hblocks

/-- R273, R274: a Busy engine has neither DONE nor ERR set, so its completion sets one of them. -/
theorem Inv.completes {sn : Snapshot} {t : State} (hbusy : s.phase = .busy sn) (ht : Completes sn s t) : Inv t := by
  obtain ⟨hdone, herr, hcmd⟩ := h.busy_flags sn hbusy
  rcases ht with rfl | ⟨d, rfl⟩
  · exact { h with
      raced_rising := .nil, raced_bound := nofun, idle_raced := fun _ => rfl, busy_flags := nofun
      not_both := fun ⟨_, hset⟩ => Bool.false_ne_true (herr.symm.trans hset) }
  · exact { h with
      raced_rising := .nil, raced_bound := nofun, idle_raced := fun _ => rfl, busy_flags := nofun
      info_clear := nofun
      info_legal := fun _ => ⟨d, by rw [completeError_regs, hcmd]⟩
      not_both := fun ⟨hset, _⟩ => Bool.false_ne_true (hdone.symm.trans hset) }

theorem Inv.engineTurn {t : State} (ht : engineTurn s = .next t) : Inv t := by
  cases hphase : s.phase with
  | idle =>
    rw [engineTurn_idle hphase] at ht
    exact Host.Outcome.next.inj ht ▸ h
  | busy sn =>
    obtain ⟨t', u, e, hu, hc⟩ := engineTurn_completes hphase
    obtain rfl := Host.Outcome.next.inj (e.symm.trans ht)
    exact (h.bodyLeaves hu).completes (hu.control.1.trans hphase) hc

end

/-! ### What a host statement does, and where it stops (R86, R90, R126) -/

/-- The states a turn of the host leaves; `hostTurn_cases` ties it to the host's turn. A host that stays where it is goes to its
own place. -/
inductive HostLeaves (s : State) : State → Prop where
  | goes (k : Nat) : HostLeaves s (s.jump k)
  | reads {u : State} {sp : Space} {addr n : Nat} {v : Word} (name k : Nat) :
      hostRead s sp addr n = .ok (v, u) → HostLeaves s ((u.bind name v).jump k)
  | writes {u : State} {sp : Space} {addr n : Nat} {v : Word} (k : Nat) :
      hostWrite s sp addr n v = .ok u → HostLeaves s (u.jump k)

/-- R90: the outcome `o` refuses an access outside the host contract. -/
def AccessStops (p : Params) (sp : Space) (addr n : Nat) (o : Host.Outcome State Fault Refusal) : Prop :=
  ¬ accessLegal p sp addr n ∧ (o = .refused .badRegAccess ∨ o = .refused .badWidth ∨ o = .refused .pastEnd)

/-- The causes for which the host statement `st` has the outcome `o` and no next state. -/
def HostStops (p : Params) (st : HostStmt) (o : Host.Outcome State Fault Refusal) : Prop :=
  (o = .refused .unmapped ∧ ∃ addr n, ((∃ name, st = .busRead addr n name) ∨ ∃ v, st = .busWrite addr n v) ∧
    p.locate addr = none) ∨
  (∃ sp addr n, ((∃ name, st = .read sp addr n name) ∨ (∃ v, st = .write sp addr n v) ∨
      ∃ a, p.locate a = some (sp, addr) ∧ ((∃ name, st = .busRead a n name) ∨ ∃ v, st = .busWrite a n v)) ∧
    AccessStops p sp addr n o) ∨
  ∃ name k l, st = .bit name k l ∧ (o = .fault (.unboundName name) ∨ o = .fault (.missingLabel l))

theorem hostReadStmt_cases (sp : Space) (addr n name : Nat) (s : State) :
    (∃ t, hostReadStmt sp addr n name s = .next t ∧ HostLeaves s t) ∨
    AccessStops s.params sp addr n (hostReadStmt sp addr n name s) := by
  rcases hostRead_cases s sp addr n with ⟨⟨v, u⟩, e⟩ | ⟨hillegal, e⟩
  · exact .inl ⟨(u.bind name v).advance, by simp only [hostReadStmt, e], .reads name _ e⟩
  · refine .inr ⟨hillegal, ?_⟩
    rcases e with e | e | e <;> simp [hostReadStmt, e]

theorem hostWriteStmt_cases (sp : Space) (addr n : Nat) (v : Word) (s : State) :
    (∃ t, hostWriteStmt sp addr n v s = .next t ∧ HostLeaves s t) ∨
    AccessStops s.params sp addr n (hostWriteStmt sp addr n v s) := by
  rcases hostWrite_cases s sp addr n v with ⟨u, e⟩ | ⟨hillegal, e⟩
  · exact .inl ⟨_, hostWriteStmt_ok e, .writes _ e⟩
  · refine .inr ⟨hillegal, ?_⟩
    rcases e with e | e | e <;> simp [hostWriteStmt, e]

theorem hostBit_cases (name k l : Nat) (s : State) :
    (∃ j, hostBit name k l s = .next (s.jump j)) ∨
    hostBit name k l s = .fault (.unboundName name) ∨ hostBit name k l s = .fault (.missingLabel l) := by
  cases hv : lookup s.host.names name with
  | none => exact .inr (.inl (by simp only [hostBit, hv]))
  | some v =>
    cases hk : v.getLsbD k with
    | false => exact .inl ⟨s.host.pc + 1, hostBit_clear hv hk l⟩
    | true =>
      cases hl : labelIndex s.host.program l with
      | none => exact .inr (.inr (by simp [hostBit, hv, hk, hl]))
      | some j => exact .inl ⟨j, hostBit_taken hv hk hl⟩

/-- Everything a host statement can do. -/
theorem hostStmt_cases (st : HostStmt) (s : State) :
    (∃ t, hostStmt st s = .next t ∧ HostLeaves s t) ∨ HostStops s.params st (hostStmt st s) := by
  cases st with
  | read sp addr n name =>
    exact (hostReadStmt_cases sp addr n name s).imp_right fun h => .inr (.inl ⟨sp, addr, n, .inl ⟨name, rfl⟩, h⟩)
  | write sp addr n v =>
    exact (hostWriteStmt_cases sp addr n v s).imp_right fun h => .inr (.inl ⟨sp, addr, n, .inr (.inl ⟨v, rfl⟩), h⟩)
  | busRead a n name =>
    cases hloc : s.params.locate a with
    | none => exact .inr (.inl ⟨by simp only [hostStmt, hloc], a, n, .inl ⟨name, rfl⟩, hloc⟩)
    | some place =>
      obtain ⟨sp, addr⟩ := place
      simp only [hostStmt, hloc]
      exact (hostReadStmt_cases sp addr n name s).imp_right fun h =>
        .inr (.inl ⟨sp, addr, n, .inr (.inr ⟨a, hloc, .inl ⟨name, rfl⟩⟩), h⟩)
  | busWrite a n v =>
    cases hloc : s.params.locate a with
    | none => exact .inr (.inl ⟨by simp only [hostStmt, hloc], a, n, .inr ⟨v, rfl⟩, hloc⟩)
    | some place =>
      obtain ⟨sp, addr⟩ := place
      simp only [hostStmt, hloc]
      exact (hostWriteStmt_cases sp addr n v s).imp_right fun h =>
        .inr (.inl ⟨sp, addr, n, .inr (.inr ⟨a, hloc, .inr ⟨v, rfl⟩⟩), h⟩)
  | wait => exact .inl ⟨_, hostWait_eq s, .reads waitName _ (hostRead_reg s .status)⟩
  | waitIrq =>
    cases hirq : irq s with
    | false => exact .inl ⟨s, by simp [hostStmt, hostWaitIrq, hirq], .goes s.host.pc⟩
    | true => exact .inl ⟨s.advance, by simp [hostStmt, hostWaitIrq, hirq], .goes _⟩
  | label l => exact .inl ⟨s.advance, rfl, .goes _⟩
  | bit name k l =>
    rcases hostBit_cases name k l s with ⟨j, e⟩ | e
    · exact .inl ⟨_, e, .goes j⟩
    · exact .inr (.inr (.inr ⟨name, k, l, rfl, e⟩))
  | halt => exact .inl ⟨_, rfl, .goes _⟩

/-- Everything the host's turn can do. -/
theorem hostTurn_cases (s : State) : (∃ t, hostTurn s = .next t ∧ HostLeaves s t) ∨
    ∃ st, s.host.program[s.host.pc]? = some st ∧ HostStops s.params st (hostTurn s) := by
  cases hst : s.host.program[s.host.pc]? with
  | none => exact .inl ⟨s, hostTurn_ended hst, .goes s.host.pc⟩
  | some st =>
    rw [hostTurn_stmt hst]
    exact (hostStmt_cases st s).imp_right fun h => ⟨st, rfl, h⟩

theorem Inv.hostTurn {s t : State} (h : Inv s) (ht : hostTurn s = .next t) : Inv t := by
  rcases hostTurn_cases s with ⟨t', e, hleaves⟩ | ⟨st, -, hstops⟩
  · obtain rfl := Host.Outcome.next.inj (e.symm.trans ht)
    cases hleaves with
    | goes k => exact h.jump k
    | reads name k hr => exact ((h.hostRead hr).bind name _).jump k
    | writes k hw => exact (h.hostWrite hw).jump k
  · rw [ht] at hstops
    simp [HostStops, AccessStops] at hstops

/-! ### The statements -/

/-- Settles O59: each agent's turn keeps the invariant, and so does taking it off the schedule. -/
theorem everyStepKeepsTheInvariant : Obligations.EveryStepKeepsTheInvariant := by
  intro s t h ht
  have h' : Inv (nextTurn s).2 := nextTurn_snd s ▸ h.withSched _
  unfold step at ht
  cases hturn : (nextTurn s).1 with
  | host => exact h'.hostTurn (by rwa [hturn] at ht)
  | engine => exact h'.engineTurn (by rwa [hturn] at ht)
  | powerOn =>
    rw [hturn] at ht
    exact Host.Outcome.next.inj ht ▸ h'.powerOn
  | source port =>
    rw [hturn] at ht
    exact Host.Outcome.next.inj ht ▸ h'.withPort port

/-- Settles O39: a command body leaves the control registers alone, and the completion sets DONE, or ERR and ERR_INFO. -/
theorem everyAcceptedCommandCompletes : Obligations.EveryAcceptedCommandCompletes := by
  intro s sn h
  obtain ⟨t, u, e, hu, hc⟩ := engineTurn_completes h
  obtain ⟨-, hcmd, hdone, herr, hinfo⟩ := hu.control
  refine ⟨t, e, ?_⟩
  rcases hc with rfl | ⟨d, rfl⟩
  · exact ⟨rfl, rfl, hcmd, .inl ⟨rfl, herr, hinfo⟩⟩
  · exact ⟨rfl, rfl, hcmd, .inr ⟨rfl, hdone, rfl, errDetail_codes d⟩⟩

/-- Settles O60: the other turns have a next state, and the host's has one or stops for a named cause. -/
theorem onlyTheHostProgramStopsTheMachine : Obligations.OnlyTheHostProgramStopsTheMachine := by
  intro s
  have hparams : (nextTurn s).2.params = s.params := by rw [nextTurn_snd]
  unfold step
  cases hturn : (nextTurn s).1 with
  | host =>
    rcases hostTurn_cases (nextTurn s).2 with ⟨t, e, -⟩ | ⟨st, hst, hstops⟩
    · exact .inl ⟨t, e⟩
    · rw [hparams] at hstops
      exact .inr ⟨rfl, st, hst, hstops⟩
  | engine => exact .inl (engineTurn_next _)
  | powerOn => exact .inl ⟨_, rfl⟩
  | source port => exact .inl ⟨_, rfl⟩

/-- Settles O36: the state CLEAR completes in, written out. -/
theorem clearEmptiesTheStream : Obligations.ClearEmptiesTheStream := fun _ _ h => exec_clear h

/-- Settles O37: an Idle engine without an error accepts the word, any other one sets REJECT. -/
theorem commandWritesAreAcceptedOrRejected : Obligations.CommandWritesAreAcceptedOrRejected := by
  refine ⟨fun s w hb herr => ?_, fun s w h => ?_⟩
  · exact ⟨_, hostWrite_cmd_accept hb herr w, rfl, rfl, rfl, rfl, rfl, rfl⟩
  · exact (hostWrite_reg s .cmd w).trans (congrArg Except.ok (writeCmd_reject h))

end Sys2Proof.Machine
end

section
/-! PROOFS. Errors and the interrupt (60_exceptions.md): the failures of each command and what each leaves behind, the return from
an error, the level of IRQ, and the statements of this family. -/
namespace Sys2Proof.Machine

/-! ### The failures of each command (R293, R296) -/

/-- How a command fails: its error, and the state its body has left when the error is recorded; `exec_fails` ties it to the
command's meaning. -/
inductive CommandFails (s : State) (sn : Snapshot) : Instr → ErrDetail → State → Prop where
  /-- R142: an encoder command's frame does not fit -/
  | frameFull {i : Instr} {f : List Byte} : encoderFrame sn i = some f →
      s.params.outCap < s.regs.outLen + f.length → CommandFails s sn i .outCapacity s
  /-- R117 -/
  | badJustify : CommandFails s sn (.justify 3#2) .badJustify s
  /-- R153 -/
  | feedRange : ¬ feedInRange sn.feedLines → CommandFails s sn .feed .feedRange s
  /-- R198 -/
  | source {d : ErrDetail} : transform resample s sn.width sn.height = .error d →
      CommandFails s sn .xform d (transformFailed s)
  /-- R239: the transform step of GEN -/
  | genSource {d : ErrDetail} : transform resample s sn.width sn.height = .error d →
      CommandFails s sn .gen d (genFailed (transformFailed s))
  /-- R239: the assembly of GEN, after a good transform step -/
  | genAssembly {d : ErrDetail} {T : Nat} {bytes : List Byte} :
      transform resample s sn.width sn.height = .ok (T, bytes) → d = .outCapacity ∨ d = .feedRange →
      CommandFails s sn .gen d (genFailed (transformDone T bytes s))

section
variable {s t : State} {sn : Snapshot}

theorem exec_encoder_fails {i : Instr} {f : List Byte} (h : s.phase = .busy sn) (hnoerr : s.regs.err = false)
    (hf : encoderFrame sn i = some f) (ht : exec i s = .next t) (herr : t.regs.err = true) :
    ∃ d u, CommandFails s sn i d u ∧ t = completeError sn d u := by
  rw [exec_encoder h hf] at ht
  cases ht
  rcases appendFrame_cases f sn s with ⟨-, e⟩ | ⟨hfull, e⟩
  · rw [e] at herr
    exact absurd (hnoerr.symm.trans herr) Bool.false_ne_true
  · exact ⟨_, _, .frameFull hf hfull, e⟩

theorem exec_gen_fails (h : s.phase = .busy sn) (hnoerr : s.regs.err = false)
    (ht : exec .gen s = .next t) (herr : t.regs.err = true) :
    ∃ d u, CommandFails s sn .gen d u ∧ t = completeError sn d u := by
  rcases exec_gen_cases h with ⟨d, hx, e⟩ | ⟨T, bytes, d, hx, hd, e⟩ | ⟨T, bytes, -, -, -, e⟩
  · exact ⟨d, _, .genSource hx, Host.Outcome.next.inj (ht.symm.trans e)⟩
  · exact ⟨d, _, .genAssembly hx (hd.imp And.left And.left), Host.Outcome.next.inj (ht.symm.trans e)⟩
  · obtain rfl := Host.Outcome.next.inj (e.symm.trans ht)
    exact absurd (hnoerr.symm.trans herr) Bool.false_ne_true

/-- A command that sets ERR has failed in one of its own ways. -/
theorem exec_fails {i : Instr} (h : s.phase = .busy sn) (hnoerr : s.regs.err = false)
    (ht : exec i s = .next t) (herr : t.regs.err = true) :
    ∃ d u, CommandFails s sn i d u ∧ t = completeError sn d u := by
  cases i with
  | init => exact exec_encoder_fails h hnoerr rfl ht herr
  | rhdr mode => exact exec_encoder_fails h hnoerr rfl ht herr
  | justify pos =>
    by_cases hpos : pos = 3#2
    · subst hpos
      rw [exec_justify h, if_pos rfl] at ht
      exact ⟨_, _, .badJustify, (Host.Outcome.next.inj ht).symm⟩
    · exact exec_encoder_fails h hnoerr (if_neg hpos) ht herr
  | feed =>
    by_cases hrange : feedInRange sn.feedLines
    · exact exec_encoder_fails h hnoerr (if_pos hrange) ht herr
    · rw [exec_feed h, if_neg hrange] at ht
      exact ⟨_, _, .feedRange hrange, (Host.Outcome.next.inj ht).symm⟩
  | xform =>
    rcases exec_xform_cases h with ⟨d, hx, e⟩ | ⟨T, bytes, -, e⟩
    · exact ⟨d, _, .source hx, Host.Outcome.next.inj (ht.symm.trans e)⟩
    · obtain rfl := Host.Outcome.next.inj (e.symm.trans ht)
      exact absurd (hnoerr.symm.trans herr) Bool.false_ne_true
  | gen => exact exec_gen_fails h hnoerr ht herr
  | clear =>
    rw [exec_clear h] at ht
    cases ht
    exact absurd (hnoerr.symm.trans herr) Bool.false_ne_true

/-- R113, R274: an engine's turn that sets ERR is a word that fails Decode, or a command that fails. -/
theorem engineTurn_fails (h : s.phase = .busy sn) (hnoerr : s.regs.err = false)
    (ht : engineTurn s = .next t) (herr : t.regs.err = true) :
    (∃ e, decodeWord sn.cmd = .error e ∧ t = completeError sn (commandDetail e) s) ∨
    (∃ i d u, decodeWord sn.cmd = .ok i ∧ CommandFails s sn i d u ∧ t = completeError sn d u) := by
  cases hd : decodeWord sn.cmd with
  | error e => exact .inl ⟨e, rfl, Host.Outcome.next.inj (ht.symm.trans (engineTurn_error h hd))⟩
  | ok i =>
    rw [engineTurn_ok h hd] at ht
    obtain ⟨d, u, hfails, e⟩ := exec_fails h hnoerr ht herr
    exact .inr ⟨i, d, u, rfl, hfails, e⟩

/-- R296: a command other than XFORM and GEN that fails has changed nothing, and CLEAR never fails. -/
theorem CommandFails.unchanged {i : Instr} {d : ErrDetail} {u : State} (h : CommandFails s sn i d u)
    (hxform : i ≠ .xform) (hgen : i ≠ .gen) : u = s ∧ i ≠ .clear := by
  cases h with
  | frameFull hf _ => exact ⟨rfl, by rintro rfl; cases hf⟩
  | badJustify => exact ⟨rfl, nofun⟩
  | feedRange => exact ⟨rfl, nofun⟩
  | source => exact absurd rfl hxform
  | genSource => exact absurd rfl hgen
  | genAssembly => exact absurd rfl hgen

end

/-- R184, R186, R193: a transform step that fails had no ready source. -/
theorem not_ready_of_transform_error {s : State} {W H : Nat} {d : ErrDetail} (h : transform resample s W H = .error d) :
    ¬ SourceReady s W H := by
  intro hready
  rw [transform_of_ready hready] at h
  cases h

/-! ### The rows of R293 -/

/-- R293: the errors of the transform step, which both XFORM's row and GEN's hold. -/
def transformErrors : List ErrDetail := [.zeroDim, .bmCapacity, .srcUnreadable, .srcDecode]

theorem transform_error_mem {K : Kernel} {s : State} {W H : Nat} {d : ErrDetail} (h : transform K s W H = .error d) :
    d ∈ transformErrors := by
  rcases transform_cases K s W H with ⟨-, e⟩ | ⟨-, -, -, e⟩ | ⟨-, -, -, d', hd', e⟩ | ⟨-, -, -, -, e⟩
  · cases e.symm.trans h
    simp [transformErrors]
  · cases e.symm.trans h
    simp [transformErrors]
  · cases e.symm.trans h
    obtain ⟨i, -, hread, -⟩ := sourceError_some hd'
    rcases srcReadError_detail hread with rfl | rfl <;> simp [transformErrors]
  · cases e.symm.trans h

/-- R114: an illegal opcode's row. -/
theorem canRaise_illegalOp {w : Word} (h : ¬ LegalOp w) : canRaise w = [.illegalOpcode] := by
  have hop : (opField w).toNat < 1 ∨ 7 < (opField w).toNat := not_not.mp h
  unfold canRaise
  split
  case h_8 => rfl
  all_goals omega

/-- R115: a reserved bit is an error of every legal opcode. -/
theorem reservedBits_mem_canRaise {w : Word} (h : LegalOp w) : ErrDetail.reservedBits ∈ canRaise w := by
  rcases opField_of_legal h with e | e | e | e | e | e | e <;> simp [canRaise, e]

/-- A word that fails Decode raises an error of its opcode's row. -/
theorem commandDetail_mem_canRaise {w : Word} {e : CommandError} (h : decodeWord w = .error e) :
    commandDetail e ∈ canRaise w := by
  rcases decodeWord_cases w with ⟨hop, he⟩ | ⟨hop, -, he⟩ | ⟨-, -, ⟨hop, -⟩, he⟩ | ⟨-, -, -, he⟩
  · cases he.symm.trans h
    simp [canRaise_illegalOp hop, commandDetail]
  · cases he.symm.trans h
    exact reservedBits_mem_canRaise hop
  · cases he.symm.trans h
    simp [canRaise, hop, commandDetail]
  · cases he.symm.trans h

/-- A command that fails raises an error of its own row. -/
theorem CommandFails.mem_canRaise {s u : State} {sn : Snapshot} {i : Instr} {d : ErrDetail} (h : CommandFails s sn i d u) :
    d ∈ canRaise (encode i) := by
  cases h with
  | frameFull hf _ =>
    cases i with
    | init | justify | feed | rhdr => simp [canRaise, Instr.op]
    | xform | gen | clear => cases hf
  | badJustify => simp [canRaise, Instr.op]
  | feedRange => simp [canRaise, Instr.op]
  | source hx =>
    have hrow : transformErrors ⊆ canRaise (encode .xform) := by decide
    exact hrow (transform_error_mem hx)
  | genSource hx =>
    have hrow : transformErrors ⊆ canRaise (encode .gen) := by decide
    exact hrow (transform_error_mem hx)
  | genAssembly _ hd => rcases hd with rfl | rfl <;> simp [canRaise, Instr.op]

/-! ### The return from an error (R298) -/

/-- A STATUS write that sets bit 2 of the W1C bits alone is the return from an error. -/
theorem writeStatus_eq_returnFromError {v : Word} (h1 : v.getLsbD 1 = false) (h2 : v.getLsbD 2 = true)
    (h4 : v.getLsbD 4 = false) (r : Regs) : writeStatus v r = returnFromError r := by
  rw [writeStatus_frame, returnFromError, h1, h2, h4]
  simp

/-- R48: ERR_INFO reads 0 while no error is recorded. -/
theorem word_errInfo_none : ErrInfo.none.word = 0#32 := by decide

theorem hostWrite_returnFromError (s : State) :
    hostWrite s .reg 0x08 4 0x00000004#32 = .ok { s with regs := returnFromError s.regs } := by
  refine (hostWrite_reg s .status _).trans (congrArg Except.ok ?_)
  simp only [regWrite]
  rw [writeStatus_eq_returnFromError (by decide) (by decide) (by decide)]

/-! ### The level of IRQ (R305) -/

section
variable {s : State}

theorem irq_iff : irq s = true ↔ s.regs.irqEn = true ∧ (s.regs.done = true ∨ s.regs.err = true) := by
  simp [irq]

theorem irq_of_not_pending (hdone : s.regs.done = false) (herr : s.regs.err = false) : irq s = false := by
  simp [irq, hdone, herr]

theorem irq_of_disabled (h : s.regs.irqEn = false) : irq s = false := by
  simp [irq, h]

theorem irq_of_reset (h : s.regs = Regs.reset) : irq s = false := irq_of_disabled (congrArg Regs.irqEn h)

end

/-- R56: a flag is 0 after the W1C write of a 1, and stays 0. -/
theorem w1c_eq_false {flag bit : Bool} (h : bit = true ∨ flag = false) : (flag && !bit) = false := by
  rcases h with rfl | rfl <;> simp

/-! ### The statements -/

/-- Settles O40: a word that fails Decode and a command that fails each raise an error of their own row. -/
theorem commandsRaiseOnlyTheirOwnErrors : Obligations.CommandsRaiseOnlyTheirOwnErrors := by
  intro s t sn h hnoerr ht herr
  rcases engineTurn_fails h hnoerr ht herr with ⟨e, hd, rfl⟩ | ⟨i, d, u, hd, hfails, rfl⟩
  · exact ⟨_, commandDetail_mem_canRaise hd, rfl⟩
  · obtain ⟨-, hw⟩ := (decodeWord_ok_iff _ _).mp hd
    exact ⟨d, hw ▸ hfails.mem_canRaise, rfl⟩

/-- Settles O41: a failure records its error over the state its body has left. -/
theorem failureEffects : Obligations.FailureEffects := by
  intro s t sn h hnoerr ht herr
  rcases engineTurn_fails h hnoerr ht herr with ⟨e, hd, rfl⟩ | ⟨i, d, u, hd, hfails, rfl⟩
  · simp only [hd]
    exact ⟨rfl, rfl, rfl, rfl, rfl, rfl⟩
  · simp only [hd]
    cases i with
    | init | justify | feed | rhdr =>
      obtain ⟨rfl, -⟩ := hfails.unchanged nofun nofun
      exact ⟨rfl, rfl, rfl, rfl, rfl, rfl⟩
    | clear => exact (hfails.unchanged nofun nofun).2 rfl
    | xform =>
      cases hfails with
      | frameFull hf _ => cases hf
      | source => exact ⟨⟨rfl, rfl, rfl⟩, rfl, rfl, rfl⟩
    | gen =>
      cases hfails with
      | frameFull hf _ => cases hf
      | genSource hx => exact ⟨rfl, rfl, rfl, .inl ⟨not_ready_of_transform_error hx, rfl, rfl, rfl⟩⟩
      | genAssembly hx =>
        obtain ⟨hready, hT, -⟩ := ready_of_transform hx
        exact ⟨rfl, rfl, rfl, .inr ⟨hready, hT, rfl, _, exec_xform_ok h hx, rfl⟩⟩

/-- Settles O44: IRQ needs IRQ_EN and a pending flag, and each way of clearing it takes one of the two away. -/
theorem interruptLevel : Obligations.InterruptLevel := by
  refine ⟨fun s => irq_iff, fun s v hdone herr => ?_, fun s v h31 h1 => ?_, fun s w hb herr => ?_, fun s v h31 => ?_,
    fun s => irq_of_reset rfl, fun s b => rfl⟩
  · exact irq_of_not_pending (w1c_eq_false hdone) ((writeStatus_err v s.regs).trans (w1c_eq_false herr))
  · simp only [regWrite, writeCtrl_fields s h31]
    exact irq_of_disabled h1
  · simp only [regWrite, writeCmd_accept hb herr]
    exact irq_of_not_pending rfl herr
  · simp only [regWrite, writeCtrl_reset s h31]
    exact irq_of_reset rfl

/-- Settles O43: after the return ERR is 0, so an Idle engine accepts the word. -/
theorem returnFromAnErrorAcceptsTheNextCommand : Obligations.ReturnFromAnErrorAcceptsTheNextCommand := by
  intro s w hidle _
  have haccept := hostWrite_cmd_accept (s := { s with regs := returnFromError s.regs }) hidle rfl w
  exact ⟨_, _, hostWrite_returnFromError s, rfl, word_errInfo_none, haccept, rfl, rfl, rfl⟩

end Sys2Proof.Machine
end

section
/-! PROOFS. Reset (70_reset_and_hazards.md): what a register reads is a function of the registers and the phase, both resets leave
the reset values of those, and the statements of this family. -/
namespace Sys2Proof.Machine

/-! ### Register reads after a reset (R340, R342) -/

/-- A register's value depends on the registers and, for STATUS.BUSY, on the phase, and on nothing else. -/
theorem regValue_congr {s t : State} (hregs : s.regs = t.regs) (hphase : s.phase = t.phase) (r : Reg) :
    regValue s r = regValue t r := by
  have hstatus : statusWord s = statusWord t := by simp only [statusWord, State.busy, hregs, hphase]
  cases r with
  | id | rsv34 | rsv38 | rsv3C => rfl
  | status => exact hstatus
  | ctrl | cmd | errInfo | srcW | srcH | feed | hdrWb | hdrLines | bmH | outLen | blocks => simp only [regValue, hregs]

theorem regValue_softReset (s : State) (r : Reg) : regValue (softReset s) r = regValue State.reset r :=
  regValue_congr (softReset_regs s) (softReset_phase s) r

theorem regValue_powerOn (s : State) (r : Reg) : regValue (powerOn s) r = regValue State.reset r :=
  regValue_congr (powerOn_regs s) (powerOn_phase s) r

/-! ### The other effects of a reset -/

/-- R340, R342: no byte of a space left unspecified is specified. -/
@[simp] theorem listed_unspecified (m : Memory) (a : Nat) : m.unspecified.listed a = false := rfl

/-- R35, R342: the soft reset is the CTRL write with bit 31 = 1. -/
theorem hostWrite_softReset {v : Word} (s : State) (h : v.getLsbD 31 = true) :
    hostWrite s .reg 0x04 4 v = .ok (softReset s) :=
  (hostWrite_reg s .ctrl v).trans (congrArg Except.ok (writeCtrl_reset s h))

/-- R6, R7, R8, R86: the parameter values of assumption log 2 are inside their ranges, and the windows are disjoint. -/
theorem params_large_wf : Params.large.wf := by decide

/-! ### The statements -/

/-- Settles O45: the sixteen values by evaluation; IRQ needs IRQ_EN, which resets to 0. -/
theorem registersReadTheirResetValues : Obligations.RegistersReadTheirResetValues :=
  ⟨by decide, rfl, irq_of_reset rfl⟩

/-- Settles O46: a power cycle leaves the reset registers and an Idle engine, and empties the three spaces. -/
theorem powerOnRestoresTheResetState : Obligations.PowerOnRestoresTheResetState := by
  intro s
  refine ⟨powerOn s, rfl, regValue_powerOn s, powerOn_phase s, irq_of_reset (powerOn_regs s), fun a => ?_, fun a => ?_,
    fun a => ?_, ?_, ?_, ?_⟩
  · rw [powerOn_src, listed_unspecified]
  · rw [powerOn_bm, listed_unspecified]
  · rw [powerOn_out, listed_unspecified]
  · rw [powerOn_src, unspecified_epoch]
  · rw [powerOn_bm, unspecified_epoch]
  · rw [powerOn_out, unspecified_epoch]

/-- Settles O47: the write is the soft reset, in either phase; it leaves the reset registers and an Idle engine. -/
theorem softResetRestoresTheResetState : Obligations.SoftResetRestoresTheResetState := by
  intro s v hv
  refine ⟨softReset s, hostWrite_softReset s hv, regValue_softReset s, softReset_phase s,
    congrArg Regs.done (softReset_regs s), congrArg Regs.err (softReset_regs s), fun a => ?_, fun a => ?_, softReset_src s,
    softReset_host s, softReset_params s⟩
  · rw [softReset_bm, listed_unspecified]
  · rw [softReset_out, listed_unspecified]

/-- Settles O58: the spaces and tables are empty, every count and flag is 0, and the engine is Idle. -/
theorem invariantHoldsAtReset : Obligations.InvariantHoldsAtReset := by
  obtain ⟨hsrc, hbm, hout⟩ := reset_wf
  exact {
    params_wf := params_large_wf
    src_wf := hsrc, bm_wf := hbm, out_wf := hout, raced_rising := .nil, names_rising := .nil
    src_bound := nofun, bm_bound := nofun, out_bound := nofun, raced_bound := nofun
    bm_complete := nofun, out_complete := nofun
    outLen_le := Nat.zero_le _, bmH_le := Nat.zero_le _, bmH_max := Nat.zero_le _, blocks_max := Nat.zero_le _
    bmH_invalid := fun _ => rfl, info_clear := fun _ => rfl, info_legal := nofun
    not_both := nofun, busy_flags := nofun, idle_raced := fun _ => rfl }

end Sys2Proof.Machine
end
